-- ==== Sys2Proof/Word.lean ====
section
/-! DEFINITION. The bit-vector types of the VLI codec (R7, R8, R60, R65). -/

namespace Sys2Proof

/-- One lane: one byte position on the wire (R13). -/
abbrev Byte := BitVec 8

/-- The 64-bit operand of a command and the 64-bit DATA of a result: eight lanes (R40, R45). -/
abbrev Word := BitVec 64

/-- A command word CMD[68:0] (R60). -/
abbrev CmdWord := BitVec 69

/-- A result word RES[69:0] (R65). -/
abbrev ResBits := BitVec 70

/-- The index of a lane, 3 bits: "no address width beyond the 3-bit lane index" (R40). -/
abbrev LaneIx := Fin 8

end Sys2Proof
end

