-- ==== Sys2Proof/Config.lean ====
section
/-! DEFINITION. What is fixed for the block: the source's constants (R6, R27), the spec's own parameters (R7),
and the points the spec leaves open, each a constant with no body (U5-U8, R43). -/

namespace Sys2Proof.Config

/-- The bound of the 1-byte form (R6): 2^6 - 1. -/
abbrev max1 : Nat := 63

/-- The bound of the 2-byte form (R6): 2^14 - 1. -/
abbrev max2 : Nat := 16383

/-- The bound of the 4-byte form (R6): 2^30 - 1. -/
abbrev max4 : Nat := 1073741823

/-- The bound of the 8-byte form, `MAX8 = MAX_VALUE` (R6): 2^62 - 1. -/
abbrev maxValue : Nat := 4611686018427387903

/-- `VALUE_BITS` (R7): the width of the encoder's operand. -/
abbrev valueBits : Nat := 64

/-- `AVAIL_BITS` (R7): the width of the decoder's count of available bytes. -/
abbrev availBits : Nat := 4

/-- `CMD_BITS` (R7): the width of a command word. -/
abbrev cmdBits : Nat := 69

/-- `LANES` (R7): the number of lanes of the encoder output and of the decoder window. -/
abbrev lanes : Nat := 8

/-- `LATENCY` (R7, U5): steps from acceptance to completion. Free: the spec gives no value and no rule depends on it. -/
opaque latency : Nat

/-- How many blocks a system holds beyond the first. Free (R7, U6). -/
opaque moreInstances : Nat

/-- `INSTANCES` (R7, U6): at least 1. -/
def instances : Nat := 1 + moreInstances

/-- What a window lane holds that no source byte fills (U8: any value), by the bytes at the cursor and the lane. Free. -/
opaque emptyLane : List Byte → Nat → Byte

/-- How far above 8 the host sets AVAIL when 8 or more bytes remain (R43: "any value from 8 to 15"). Free. -/
opaque extraAvail : List Byte → Fin 8

/-- Which host is served at a turn when several share a block (R171, U7: any order). Free. -/
opaque grant : Nat → Nat

end Sys2Proof.Config
end

