-- ==== Sys2Proof/Syntax.lean ====
section
/-! DEFINITION. The rows of the opcode table (R84), the encodings a host hands to the block, and the assembler's
statements (R80-R82). -/

namespace Sys2Proof

/-- An encoding width: 1, 2, 4 or 8 bytes (R12, R75). -/
inductive Width where
  | w1
  | w2
  | w4
  | w8
  deriving DecidableEq, Repr

/-- The six rows of the opcode table (R84). Every operand has exactly the bits its row gives it, so every term is
an instruction the block can be handed: no command word and no first byte is illegal (R61, R76). -/
inductive Instr where
  /-- VLI.ENC: CMD[67:64], which the command ignores (R64), and VALUE (R62). -/
  | vliEnc (ign : BitVec 4) (value : Word)
  /-- VLI.DEC: AVAIL and WIN (R63). -/
  | vliDec (avail : BitVec 4) (win : Word)
  /-- The 1-byte wire form of v[5:0] (R70). -/
  | vli1 (v : BitVec 6)
  /-- The 2-byte wire form of v[13:0] (R71). -/
  | vli2 (v : BitVec 14)
  /-- The 4-byte wire form of v[29:0] (R72). -/
  | vli4 (v : BitVec 30)
  /-- The 8-byte wire form of v[61:0] (R73). -/
  | vli8 (v : BitVec 62)
  deriving DecidableEq, Repr

/-- What the block is handed: a command word (R60), or source bytes under the host's cursor, first byte first, that
the decoder reads a wire form from (R42, R43, R69). -/
inductive Code where
  | cmd (w : CmdWord)
  | wire (bytes : List Byte)
  deriving DecidableEq, Repr

/-- Why no wire form can be read from source bytes. Both are the source's InsufficientData (R131, R133);
the names are the model's own (Log 5), and no result shows them (R162). -/
inductive DecodeReject where
  /-- There is no first byte. -/
  | emptySource
  /-- The first byte names a width of more bytes than there are. -/
  | shortSource (w : Width)
  deriving DecidableEq, Repr

/-- A statement of the assembler syntax, its numbers as written (R80-R82). -/
inductive AsmStmt where
  /-- `VLI.ENC <value>` (R80). -/
  | enc (value : Nat)
  /-- `VLI.DEC <avail>, <win>` (R81). -/
  | dec (avail win : Nat)
  /-- The pseudo-instruction `VLI.DECB <b0>, ..., <b(k-1)>` (R82). -/
  | decb (bytes : List Nat)
  deriving DecidableEq, Repr

end Sys2Proof
end

