-- ==== Sys2Proof/WellFormed.lean ====
section
/-! DEFINITION. What must hold of an assembler statement (R80-R82), of a word for the assembler to emit it (R64), and of
source bytes to be exactly one wire form (R69). Of Instr itself there is nothing to check: its operands have exactly
the bits of their fields (Syntax.lean). -/

namespace Sys2Proof

/-- The assembler refuses numbers that cannot be presented (R80-R82): a value or window of 2^64 or more, an AVAIL above
15, a byte above 255, more than 8 bytes. -/
def AsmStmt.wf : AsmStmt → Bool
  | .enc value => decide (value < 2 ^ Config.valueBits)
  | .dec avail win => decide (avail < 2 ^ Config.availBits) && decide (win < 2 ^ Config.valueBits)
  | .decb bytes => decide (bytes.length ≤ Config.lanes) && bytes.all (fun b => decide (b < 256))

/-- The assembler emits this command: it writes VLI.ENC's ignored field as 0 (R64), and it has no syntax for a bare
wire form. A command that is not assemblable is still a legal command (R61). -/
def Instr.assemblable : Instr → Bool
  | .vliEnc ign _ => decide (ign = 0#4)
  | .vliDec _ _ => true
  | .vli1 _ => false
  | .vli2 _ => false
  | .vli4 _ => false
  | .vli8 _ => false

/-- The code of one instruction and nothing more: every command word (R61); of source bytes, those as many as their
first byte says, `1 << b0[7:6]` (R69, R74). -/
def Code.wf : Code → Bool
  | .cmd _ => true
  | .wire [] => false
  | .wire (b0 :: rest) => decide (rest.length + 1 = 2 ^ (b0.extractLsb' 6 2).toNat)

end Sys2Proof
end

