-- ==== Sys2Proof/Decode.lean ====
section
/-! DEFINITION. Widths and tags (R75), the fields of a command word (R60), the decoder of command words and of wire
forms, total and rejecting by name (R61, R74, R76), and the encoder written from the same layouts (R60, R70-R73). -/

namespace Sys2Proof

/-- The number of bytes of a width (R12). -/
def Width.bytes : Width → Nat
  | .w1 => 1
  | .w2 => 2
  | .w4 => 4
  | .w8 => 8

/-- The 2-bit width tag (R75). -/
def Width.tag : Width → BitVec 2
  | .w1 => 0b00#2
  | .w2 => 0b01#2
  | .w4 => 0b10#2
  | .w8 => 0b11#2

/-- The width a tag names: every tag names one (R75, R76). -/
def Width.ofTag (t : BitVec 2) : Width :=
  if t = 0b00#2 then .w1 else if t = 0b01#2 then .w2 else if t = 0b10#2 then .w4 else .w8

/-- The largest value a width holds, `2^(8w-2) - 1` (R6). -/
def Width.maxValue : Width → Nat
  | .w1 => Config.max1
  | .w2 => Config.max2
  | .w4 => Config.max4
  | .w8 => Config.maxValue

/-- The payload bits of a width, `8w - 2` (R6). -/
def Width.payloadBits (w : Width) : Nat := 8 * w.bytes - 2

/-- The width tag of a first byte, `b0[7:6]` (R69, R132). -/
def tagOf (b0 : Byte) : BitVec 2 := b0.extractLsb' 6 2

/-- The width of the wire form that begins with `b0` (R74). -/
def widthOf (b0 : Byte) : Width := Width.ofTag (tagOf b0)

/-- `OP = CMD[68]` (R60). -/
def cmdOp (w : CmdWord) : BitVec 1 := w.extractLsb' 68 1

/-- `CMD[67:64]`: AVAIL of a VLI.DEC, ignored in a VLI.ENC (R60, R64). -/
def cmdAvail (w : CmdWord) : BitVec 4 := w.extractLsb' 64 4

/-- `CMD[63:0]`: VALUE of a VLI.ENC, WIN of a VLI.DEC (R60). -/
def cmdOperand (w : CmdWord) : Word := w.extractLsb' 0 64

/-- A command word from its fields (R60). -/
def cmdWord (op : BitVec 1) (avail : BitVec 4) (operand : Word) : CmdWord := op ++ avail ++ operand

/-- `CMD[68]` selects the command; no word is illegal (R61). -/
def decodeCmd (w : CmdWord) : Instr :=
  if cmdOp w = 0#1 then .vliEnc (cmdAvail w) (cmdOperand w) else .vliDec (cmdAvail w) (cmdOperand w)

/-- Reads the rest of a form of width `w` after its first byte, and gives the bytes after it; the value is the
big-endian join of the form's bytes less its two tag bits (R69, R134). -/
def readForm (w : Width) (b0 : Byte) (rest : List Byte) : Except DecodeReject (Instr × List Byte) :=
  match w, rest with
  | .w1, r => .ok (.vli1 (b0.setWidth 6), r)
  | .w2, b1 :: r => .ok (.vli2 ((b0 ++ b1).setWidth 14), r)
  | .w4, b1 :: b2 :: b3 :: r => .ok (.vli4 ((b0 ++ b1 ++ b2 ++ b3).setWidth 30), r)
  | .w8, b1 :: b2 :: b3 :: b4 :: b5 :: b6 :: b7 :: r =>
    .ok (.vli8 ((b0 ++ b1 ++ b2 ++ b3 ++ b4 ++ b5 ++ b6 ++ b7).setWidth 62), r)
  | w, _ => .error (.shortSource w)

/-- Reads one wire form from source bytes and gives the bytes after it. The form is known from the first byte alone
(R74). -/
def decodeWire : List Byte → Except DecodeReject (Instr × List Byte)
  | [] => .error .emptySource
  | b0 :: rest => readForm (widthOf b0) b0 rest

/-- Decoding, total: a command word never is rejected, source bytes are rejected by name when they hold no whole form. -/
def decode : Code → Except DecodeReject (Instr × List Byte)
  | .cmd w => .ok (decodeCmd w, [])
  | .wire bytes => decodeWire bytes

/-- `b0 = 0b00vvvvvv` (R70). -/
def wireBytes1 (v : BitVec 6) : List Byte := [0b00#2 ++ v]

/-- `b0 = 0b01 ++ v[13:8]`, `b1 = v[7:0]` (R71). -/
def wireBytes2 (v : BitVec 14) : List Byte := [0b01#2 ++ v.extractLsb' 8 6, v.extractLsb' 0 8]

/-- `b0 = 0b10 ++ v[29:24]`, then `v[23:16]`, `v[15:8]`, `v[7:0]` (R72). -/
def wireBytes4 (v : BitVec 30) : List Byte :=
  [0b10#2 ++ v.extractLsb' 24 6, v.extractLsb' 16 8, v.extractLsb' 8 8, v.extractLsb' 0 8]

/-- `b0 = 0b11 ++ v[61:56]`, then the seven lower bytes, most significant first (R73). -/
def wireBytes8 (v : BitVec 62) : List Byte :=
  [0b11#2 ++ v.extractLsb' 56 6, v.extractLsb' 48 8, v.extractLsb' 40 8, v.extractLsb' 32 8,
   v.extractLsb' 24 8, v.extractLsb' 16 8, v.extractLsb' 8 8, v.extractLsb' 0 8]

/-- The encoder: the command word of a command (R60), the bytes of a wire form (R70-R73). -/
def encode : Instr → Code
  | .vliEnc ign value => .cmd (cmdWord 0#1 ign value)
  | .vliDec avail win => .cmd (cmdWord 1#1 avail win)
  | .vli1 v => .wire (wireBytes1 v)
  | .vli2 v => .wire (wireBytes2 v)
  | .vli4 v => .wire (wireBytes4 v)
  | .vli8 v => .wire (wireBytes8 v)

/-- Byte `k` of a number whose first byte is bits 7..0 (the opcode table's numbering; Log 4). -/
def nthByte (w k : Nat) : Byte := BitVec.ofNat 8 (w >>> (8 * k))

/-- The code whose bits are `w` as the opcode table numbers them (Log 4): a row of more than 64 bits is a command word
(R60); any other is a wire form, its first byte in bits 7..0, with zeros after its `nbits` up to the longest form. -/
def tableCode (nbits w : Nat) : Code :=
  if 64 < nbits then .cmd (BitVec.ofNat 69 (w % 2 ^ nbits))
  else .wire ([0, 1, 2, 3, 4, 5, 6, 7].map (nthByte (w % 2 ^ nbits)))

/-- The instruction the decoder reads from the bits of an opcode-table row. A number of more than 69 bits is no command
word (R60). -/
def decodeTableWord (nbits w : Nat) : Option Instr :=
  if 64 < nbits ∧ 2 ^ Config.cmdBits ≤ w % 2 ^ nbits then none
  else match decode (tableCode nbits w) with
    | .ok (i, _) => some i
    | .error _ => none

end Sys2Proof
end

