-- ==== Sys2Proof/Machine/State.lean ====
section
/-! DEFINITION. The block's state, plain data: the two result registers (R22, R24) and what the host presents (Log 1);
the reasons of the host's read path; the state after reset (R31). -/

namespace Sys2Proof.Machine

/-- A result word's fields (R65). -/
structure ResWord where
  /-- `RES[69:68]`, the outcome code (R66). -/
  status : BitVec 2
  /-- `RES[67:64]`, bytes written or consumed, 0 on error (R67). -/
  len : BitVec 4
  /-- `RES[63:0]`, the encoded bytes or the decoded value (R65). -/
  data : Word
  deriving DecidableEq, Repr

/-- The two error kinds, and no others (R160). -/
inductive ErrorKind where
  | valueTooLarge
  | insufficientData
  deriving DecidableEq, Repr

/-- What the host presents in one step (R52, R180, R189). -/
inductive Input where
  /-- A command word, or source bytes in the decode window. -/
  | present (c : Code)
  /-- No command (R189). -/
  | idle
  /-- The reset input is asserted (R180). -/
  | reset
  deriving DecidableEq, Repr

/-- What stops a reader of the block. `step` raises none of them (R24). -/
inductive Fault where
  /-- Raised by `hostRead` only: the register read shows the reserved STATUS 11, so the block read is not a
  conforming one (U2, R79). Safe: the model's own block never produces it. -/
  | reservedStatus
  deriving DecidableEq, Repr

/-- What has no meaning. `step` answers none of them (R24). -/
inductive Refusal where
  /-- An instruction whose meaning is not written yet, by its mnemonic. Raised by no arm of `exec`. Safe. -/
  | notModelled (mnemonic : String)
  /-- Raised by `hostRead` only: VALID = 0, the register holds no result (R185, U4). Safe. -/
  | noResult
  deriving DecidableEq, Repr

/-- The block's whole state is the pair of result registers (R24, R30). A register is `none` while its VALID is 0 and
`some` of its result word once VALID is 1 (R23; Log 2). `port` is not the block's: it is what the host presents from
here on, one entry a step, oldest first (Log 1). -/
structure State where
  encRes : Option ResWord
  decRes : Option ResWord
  port   : List Input
  deriving DecidableEq, Repr

/-- Right after reset: both registers VALID = 0 with all fields 0 (R31, R180), and nothing presented. -/
def State.reset : State := { encRes := none, decRes := none, port := [] }

end Sys2Proof.Machine
end

