-- ==== Sys2Proof/Machine/Flags.lean ====
section
/-! DEFINITION. STATUS, the block's only status indication (R25): its codes (R66), and the fields a register shows at its
port, VALID beside the 70-bit result word (R22, R23, R65). -/

namespace Sys2Proof.Machine

/-- Success (R66). -/
def statusOk : BitVec 2 := 0b00#2

/-- Never produced (R66, R79). -/
def statusReserved : BitVec 2 := 0b11#2

/-- The STATUS code of an error (R66, R161, R162). -/
def ErrorKind.code : ErrorKind → BitVec 2
  | .valueTooLarge => 0b01#2
  | .insufficientData => 0b10#2

/-- The 70-bit result word: STATUS, LEN, DATA (R65). -/
def ResWord.bits (r : ResWord) : ResBits := r.status ++ r.len ++ r.data

/-- VALID (R23). -/
def valid (r : Option ResWord) : BitVec 1 :=
  match r with
  | none => 0#1
  | some _ => 1#1

/-- The result word at a register's port. While VALID = 0 every field shows its reset value (R23, R31, U4). -/
def portView (r : Option ResWord) : ResWord :=
  match r with
  | none => { status := 0#2, len := 0#4, data := 0#64 }
  | some res => res

end Sys2Proof.Machine
end

