-- ==== Sys2Proof/Machine/Operands.lean ====
section
/-! DEFINITION. The byte spaces (R29, R40): lanes and their reads and writes (R9, R41, R42), the decode window and the
count AVAIL that a host loads from source bytes (R43, R82). -/

namespace Sys2Proof.Machine

/-- The lanes, first on the wire first (R13). -/
def allLanes : List LaneIx := [0, 1, 2, 3, 4, 5, 6, 7]

/-- The lanes of a form of width `w`: `0 .. w-1` (R47, R48). -/
def formLanes : Width → List LaneIx
  | .w1 => [0]
  | .w2 => [0, 1]
  | .w4 => [0, 1, 2, 3]
  | .w8 => [0, 1, 2, 3, 4, 5, 6, 7]

/-- `MemRead(k, 1)`: lane `k` is bits `[63-8k : 56-8k]` (R9, R41, R42). Reading has no side effect (R50). -/
def memRead (x : Word) (k : LaneIx) : Byte := x.extractLsb' (56 - 8 * k.val) 8

/-- `MemWrite(k, 1, b)`: sets lane `k` and no other (R9, R41). -/
def memWrite (x : Word) (k : LaneIx) (b : Byte) : Word :=
  (x &&& ~~~((255#64) <<< (56 - 8 * k.val))) ||| (b.setWidth 64 <<< (56 - 8 * k.val))

/-- The 64-bit word whose lane `k` is `f k`: the big-endian reading of eight lanes (R45). -/
def packLanes (f : Nat → Byte) : Word := f 0 ++ f 1 ++ f 2 ++ f 3 ++ f 4 ++ f 5 ++ f 6 ++ f 7

/-- The window of source bytes: lane `k` is byte `k`, and `fill k` where there is none (R42, R43). -/
def windowOf (fill : Nat → Byte) (bytes : List Byte) : Word := packLanes (fun k => bytes.getD k (fill k))

/-- AVAIL for source bytes: their number, and when 8 or more remain any value from 8 to 15 (R43). -/
def availOf (extra : Fin 8) (bytes : List Byte) : BitVec 4 :=
  if bytes.length < 8 then BitVec.ofNat 4 bytes.length else BitVec.ofNat 4 (8 + extra.val)

/-- The window the host loads from the bytes at its cursor; lanes past them hold anything (U8; Log 5). -/
def sourceWindow (bytes : List Byte) : Word := windowOf (Config.emptyLane bytes) bytes

/-- The AVAIL the host sets for the bytes at its cursor (R43; Log 6). -/
def sourceAvail (bytes : List Byte) : BitVec 4 := availOf (Config.extraAvail bytes) bytes

/-- The window of VLI.DECB: the given bytes, then zeros (R82). -/
def decbWindow (bytes : List Byte) : Word := windowOf (fun _ => 0#8) bytes

/-- The AVAIL of VLI.DECB: the number of bytes given, at most 8 (R82). -/
def decbAvail (bytes : List Byte) : BitVec 4 := BitVec.ofNat 4 bytes.length

/-- A width as a value of LEN (R67). -/
def lenField (w : Width) : BitVec 4 := BitVec.ofNat 4 w.bytes

end Sys2Proof.Machine
end

