-- ==== Sys2Proof/Machine/Ops.lean ====
section
/-! DEFINITION. The shared operations: error completion (R163), the encoder's and the decoder's sub-units and whole results
(R101-R106, R131-R135), the writes of the result registers (R24), reset (R180), and what a code makes the block do. -/

namespace Sys2Proof.Machine

/-- `raise E()`: the whole of what an error does. Nothing is saved, no control is transferred (R163, R166). -/
def raise (e : ErrorKind) : ResWord := { status := e.code, len := 0#4, data := 0#64 }

/-- A success: STATUS 00, LEN the width used (R66, R67). -/
def success (w : Width) (data : Word) : ResWord := { status := statusOk, len := lenField w, data := data }

/-- Width selector: the range check on the full operand first (R101, R165), then the smallest width that holds it
(R102). -/
def selectWidth (value : Word) : Option Width :=
  if Config.maxValue < value.toNat then none
  else if value.toNat ≤ Config.max1 then some .w1
  else if value.toNat ≤ Config.max2 then some .w2
  else if value.toNat ≤ Config.max4 then some .w4
  else some .w8

/-- Width selector, bit-test form, for values in range (R103). -/
def selectWidthBits (value : Word) : Width :=
  if value.extractLsb' 30 32 ≠ 0#32 then .w8
  else if value.extractLsb' 14 16 ≠ 0#16 then .w4
  else if value.extractLsb' 6 8 ≠ 0#8 then .w2
  else .w1

/-- Tag packer: `W = (tag << (8w - 2)) | VALUE` (R104). -/
def packTag (w : Width) (value : Word) : Word := (w.tag.setWidth 64 <<< w.payloadBits) ||| value

/-- Byte `k` of the `8w`-bit word `W`, most significant first: `W[8w-1-8k : 8w-8-8k]` (R105). -/
def wordByte (w : Width) (W : Word) (k : LaneIx) : Byte := W.extractLsb' (8 * w.bytes - 8 - 8 * k.val) 8

/-- Big-endian writer: `W` into lanes `0 .. w-1`, zeros into the others (R105, R47). -/
def writeLanes (w : Width) (W : Word) : Word :=
  allLanes.foldl (fun x k => memWrite x k (if k.val < w.bytes then wordByte w W k else 0#8)) 0#64

/-- `EncodeResult(VALUE)` (R106). -/
def encodeResult (value : Word) : ResWord :=
  match selectWidth value with
  | none => raise .valueTooLarge
  | some w => success w (writeLanes w (packTag w value))

/-- Payload reader: the form's lanes joined, lane 0 most significant (R133, R134). -/
def joinLanes (w : Width) (win : Word) : Word :=
  (formLanes w).foldl (fun x k => (x <<< 8) ||| (memRead win k).setWidth 64) 0#64

/-- Byte-order converter: clears the two tag bits, `W & (2^(8w-2) - 1)` (R134, N14). -/
def clearTag (w : Width) (W : Word) : Word := W &&& BitVec.ofNat 64 (2 ^ w.payloadBits - 1)

/-- Tag extractor: the width the window's first byte names (R132). -/
def windowWidth (win : Word) : Width := widthOf (memRead win 0)

/-- `DecodeResult(WIN, AVAIL)` (R135): the empty check (R131) comes before the width check (R133, R164). -/
def decodeResult (win : Word) (avail : BitVec 4) : ResWord :=
  if avail = 0#4 then raise .insufficientData
  else if avail.toNat < (windowWidth win).bytes then raise .insufficientData
  else success (windowWidth win) (clearTag (windowWidth win) (joinLanes (windowWidth win) win))

/-- The lanes a VLI.DEC reads: none of an empty source (R131), lane 0 when the source is short, else the form's
(R48, R133). -/
def lanesRead (win : Word) (avail : BitVec 4) : List LaneIx :=
  if avail = 0#4 then []
  else if avail.toNat < (windowWidth win).bytes then [0]
  else formLanes (windowWidth win)

/-- Writes ENC_RES as one unit, VALID with it (R24, R49). -/
def State.writeEnc (s : State) (r : ResWord) : State := { s with encRes := some r }

/-- Writes DEC_RES as one unit, VALID with it (R24, R49). -/
def State.writeDec (s : State) (r : ResWord) : State := { s with decRes := some r }

/-- The host's inputs from the next step on. -/
def State.withPort (s : State) (p : List Input) : State := { s with port := p }

/-- The reset event: every register at its reset value, and no other effect (R180; Log 9). -/
def State.assertReset (s : State) : State := State.reset.withPort s.port

/-- `Step(S, cmd)` (R24): one command word, its unit's register written, the other register unchanged. -/
def atomicStep (s : State) (cmd : CmdWord) : State :=
  if cmdOp cmd = 0#1 then s.writeEnc (encodeResult (cmdOperand cmd))
  else s.writeDec (decodeResult (cmdOperand cmd) (cmdAvail cmd))

/-- The decoder run on the bytes of one wire form, as VLI.DECB runs it (R82, R84; Log 3). -/
def decodeForm (bytes : List Byte) (s : State) : State := s.writeDec (decodeResult (decbWindow bytes) (decbAvail bytes))

/-- The instruction a presented code makes the block perform. Source bytes that hold a whole form perform that form;
others are the VLI.DEC of the window the host loads from them, which completes with InsufficientData (R131, R133;
Log 5). -/
def fetch : Code → Instr
  | .cmd w => decodeCmd w
  | .wire bytes =>
    match decodeWire bytes with
    | .ok (i, _) => i
    | .error _ => .vliDec (sourceAvail bytes) (sourceWindow bytes)

/-- The command word at the port for a presented code: source bytes reach the block in a VLI.DEC word (R43, R60). -/
def commandOf : Code → CmdWord
  | .cmd w => w
  | .wire bytes => cmdWord 1#1 (sourceAvail bytes) (sourceWindow bytes)

end Sys2Proof.Machine
end

