-- ==== Sys2Proof/Machine/Decoder.lean ====
section
/-! DEFINITION. The decoder's command and the four wire forms it reads (41_decode.md). -/

namespace Sys2Proof.Machine

/-- VLI.DEC (R135): `DEC_RES <- {VALID = 1, RES = DecodeResult(WIN, AVAIL)}`. -/
def execVliDec (avail : BitVec 4) (win : Word) (s : State) : Host.Outcome State Fault Refusal :=
  .next (s.writeDec (decodeResult win avail))

/-- VLI1 (R136): the decoder on the form's one byte. -/
def execVli1 (v : BitVec 6) (s : State) : Host.Outcome State Fault Refusal := .next (decodeForm (wireBytes1 v) s)

/-- VLI2 (R137): the decoder on the form's two bytes. -/
def execVli2 (v : BitVec 14) (s : State) : Host.Outcome State Fault Refusal := .next (decodeForm (wireBytes2 v) s)

/-- VLI4 (R138): the decoder on the form's four bytes. -/
def execVli4 (v : BitVec 30) (s : State) : Host.Outcome State Fault Refusal := .next (decodeForm (wireBytes4 v) s)

/-- VLI8 (R139): the decoder on the form's eight bytes. -/
def execVli8 (v : BitVec 62) (s : State) : Host.Outcome State Fault Refusal := .next (decodeForm (wireBytes8 v) s)

end Sys2Proof.Machine
end

