-- ==== Sys2Proof/Machine/Encoder.lean ====
section
/-! DEFINITION. The encoder's command (40_encode.md). -/

namespace Sys2Proof.Machine

/-- VLI.ENC (R106): `ENC_RES <- {VALID = 1, RES = EncodeResult(VALUE)}`. CMD[67:64] changes nothing (R64). -/
def execVliEnc (_ign : BitVec 4) (value : Word) (s : State) : Host.Outcome State Fault Refusal :=
  .next (s.writeEnc (encodeResult value))

end Sys2Proof.Machine
end

