-- ==== Sys2Proof/Machine/Dispatch.lean ====
section
/-! DEFINITION. One arm per row of the opcode table (R84). -/

namespace Sys2Proof.Machine

def exec (i : Instr) (s : State) : Host.Outcome State Fault Refusal :=
  match i with
  | .vliEnc ign value => Sys2Proof.Machine.execVliEnc ign value s
  | .vliDec avail win => Sys2Proof.Machine.execVliDec avail win s
  | .vli1 v => Sys2Proof.Machine.execVli1 v s
  | .vli2 v => Sys2Proof.Machine.execVli2 v s
  | .vli4 v => Sys2Proof.Machine.execVli4 v s
  | .vli8 v => Sys2Proof.Machine.execVli8 v s

end Sys2Proof.Machine
end

