-- ==== Sys2Proof/Machine/Step.lean ====
section
/-! DEFINITION. One step: the block takes what the host presents now, at most one command (R11, R24, R52). -/

namespace Sys2Proof.Machine

/-- One step (R24). With nothing presented the block is idle and its state stays (R189). A step always answers a next
state: the block has no fault, no stuck state and no refusal (R24). -/
def step (s : State) : Host.Outcome State Fault Refusal :=
  match s.port with
  | [] => .next s
  | .idle :: rest => .next (s.withPort rest)
  | .reset :: rest => .next (s.withPort rest).assertReset
  | .present c :: rest => exec (fetch c) (s.withPort rest)

/-- The state in which the host presents the code with these bits, as the opcode table numbers them, before all it
presents else: the very next step performs it (Log 1, Log 4). -/
def State.withFetchWord (s : State) (nbits w : Nat) : State := s.withPort (.present (tableCode nbits w) :: s.port)

end Sys2Proof.Machine
end

