-- ==== Sys2Proof/Machine/Assembler.lean ====
section
/-! DEFINITION. The assembler syntax (R80-R83): statements to command words, and lines of text to statements. What the
lexical conventions leave open is in Log 10. -/

namespace Sys2Proof.Machine

/-- Why a line is refused. -/
inductive AsmError where
  /-- Neither VLI.ENC, VLI.DEC nor VLI.DECB, in upper case (R83). -/
  | unknownMnemonic
  /-- The operands are not numbers of the form and number the statement takes (R80-R82). -/
  | badOperands
  /-- A number that cannot be presented (R80-R82). -/
  | outOfRange
  deriving DecidableEq, Repr

/-- A statement's one command word; none where the assembler refuses it (R80-R82). -/
def assemble (a : AsmStmt) : Option CmdWord :=
  if a.wf then
    some (match a with
      | .enc value => cmdWord 0#1 0#4 (BitVec.ofNat 64 value)
      | .dec avail win => cmdWord 1#1 (BitVec.ofNat 4 avail) (BitVec.ofNat 64 win)
      | .decb bytes =>
        cmdWord 1#1 (decbAvail (bytes.map (BitVec.ofNat 8))) (decbWindow (bytes.map (BitVec.ofNat 8))))
  else none

/-- Blank space within a line. -/
def isBlank (c : Char) : Bool := c == ' ' || c == '\t' || c == '\r'

/-- A decimal digit's value. -/
def decDigit (c : Char) : Option Nat :=
  if 48 ≤ c.toNat ∧ c.toNat ≤ 57 then some (c.toNat - 48) else none

/-- A hexadecimal digit's value, in either case. -/
def hexDigit (c : Char) : Option Nat :=
  if 48 ≤ c.toNat ∧ c.toNat ≤ 57 then some (c.toNat - 48)
  else if 65 ≤ c.toNat ∧ c.toNat ≤ 70 then some (c.toNat - 55)
  else if 97 ≤ c.toNat ∧ c.toNat ≤ 102 then some (c.toNat - 87)
  else none

/-- The value of digits, most significant first, after those that gave `acc`. -/
def digitsValue (digit : Char → Option Nat) (base : Nat) : List Char → Nat → Option Nat
  | [], acc => some acc
  | c :: cs, acc =>
    match digit c with
    | some d => digitsValue digit base cs (acc * base + d)
    | none => none

/-- `0x` and hexadecimal digits (R8). -/
def hexNumber : List Char → Option Nat
  | '0' :: 'x' :: c :: cs => digitsValue hexDigit 16 (c :: cs) 0
  | _ => none

/-- A decimal or `0x` hexadecimal natural number (R80). -/
def number (cs : List Char) : Option Nat :=
  match hexNumber cs with
  | some n => some n
  | none =>
    match cs with
    | [] => none
    | c :: rest => digitsValue decDigit 10 (c :: rest) 0

/-- Drops blanks at both ends. -/
def trim (cs : List Char) : List Char := ((cs.dropWhile isBlank).reverse.dropWhile isBlank).reverse

/-- Splits at every `sep`. -/
def splitAt (sep : Char) : List Char → List (List Char)
  | [] => [[]]
  | c :: cs =>
    if c == sep then [] :: splitAt sep cs
    else match splitAt sep cs with
      | [] => [[c]]
      | part :: parts => (c :: part) :: parts

/-- Every number of a list, or none if one is none. -/
def allNumbers : List (Option Nat) → Option (List Nat)
  | [] => some []
  | none :: _ => none
  | some n :: rest =>
    match allNumbers rest with
    | some ns => some (n :: ns)
    | none => none

/-- The statement of a mnemonic and its operand text (R80-R82). -/
def parseStmt (mnemonic operands : List Char) : Except AsmError AsmStmt :=
  if mnemonic = ['V', 'L', 'I', '.', 'E', 'N', 'C'] then
    match number operands with
    | some value => .ok (.enc value)
    | none => .error .badOperands
  else if mnemonic = ['V', 'L', 'I', '.', 'D', 'E', 'C'] then
    match (splitAt ',' operands).map trim with
    | [a, w] =>
      match number a, hexNumber w with
      | some avail, some win => .ok (.dec avail win)
      | _, _ => .error .badOperands
    | _ => .error .badOperands
  else if mnemonic = ['V', 'L', 'I', '.', 'D', 'E', 'C', 'B'] then
    if operands = [] then .ok (.decb [])
    else match allNumbers ((splitAt ',' operands).map (fun p => number (trim p))) with
      | some bytes => .ok (.decb bytes)
      | none => .error .badOperands
  else .error .unknownMnemonic

/-- One line: its one command's word, whatever the comment after it (R83). Of a line with no command at all (empty, or only
blanks and comment) the spec says nothing: here it is taken and gives no word, `none` (DESIGN CHOICE, Log 10). -/
def assembleLine (line : List Char) : Except AsmError (Option CmdWord) :=
  let text := trim (line.takeWhile (fun c => c != ';'))
  if text = [] then .ok none
  else match parseStmt (text.takeWhile (fun c => !isBlank c)) (trim (text.dropWhile (fun c => !isBlank c))) with
    | .error e => .error e
    | .ok a =>
      match assemble a with
      | some w => .ok (some w)
      | none => .error .outOfRange

/-- A text, one command a line, to its command words in order (R83). What a refused line does to the rest of a text the
spec does not say: here the whole text is refused, with the error of its first refused line (DESIGN CHOICE, Log 10). -/
def assembleLines : List (List Char) → Except AsmError (List CmdWord)
  | [] => .ok []
  | line :: rest =>
    match assembleLine line, assembleLines rest with
    | .ok (some w), .ok ws => .ok (w :: ws)
    | .ok none, .ok ws => .ok ws
    | .error e, _ => .error e
    | .ok _, .error e => .error e

/-- A whole text (R83). -/
def assembleText (text : List Char) : Except AsmError (List CmdWord) := assembleLines (splitAt '\n' text)

end Sys2Proof.Machine
end

