-- ==== Sys2Proof/Machine/HostSide.lean ====
section
/-! DEFINITION. What a host does at the block's ports: reading a result (R22, R185), mapping lanes to its byte sink and its
byte cursor (R43), the canonicality check (R140), and a run with the results read along the way (R189). None of it is
state of the block (R13, R21). -/

namespace Sys2Proof.Machine

/-- The host's read of a result register, by its own path and not by a command (R22, R174). While VALID = 0 there is no
result (R185, U4); a reserved STATUS shows a non-conforming block (U2; Log 11). Reading changes nothing (R50). -/
def hostRead (r : Option ResWord) : Host.Outcome ResWord Fault Refusal :=
  match r with
  | none => .refused .noResult
  | some res => if res.status = statusReserved then .fault .reservedStatus else .next res

/-- Lanes `0 .. LEN-1` of a result's DATA, lane 0 first: the bytes a host appends (R41, R43). -/
def resultBytes (r : ResWord) : List Byte := (allLanes.take r.len.toNat).map (memRead r.data)

/-- The host appends an encoder result to its sink (R43). After an error LEN is 0 and nothing is appended (R112). -/
def appendResult (sink : List Byte) (r : ResWord) : List Byte := sink ++ resultBytes r

/-- The host's cursor after a decode: advanced by LEN, so it stays where it was after an error (R43, N15). -/
def advanceCursor (bytes : List Byte) (r : ResWord) : List Byte := bytes.drop r.len.toNat

/-- The VLI.DEC a host issues for the bytes at its cursor (R43). -/
def loadSource (bytes : List Byte) : Instr := .vliDec (sourceAvail bytes) (sourceWindow bytes)

/-- The host's check for canonical input: the form's LEN against the LEN VLI.ENC gives for the decoded value (R140). -/
def canonicalCheck (decRes : ResWord) : Bool := decRes.len == (encodeResult decRes.data).len

/-- What a host does in a run (R189). -/
inductive HostAction where
  | issue (x : Input)
  | readEnc
  | readDec
  deriving DecidableEq, Repr

/-- The action reads a result register (R22). -/
def HostAction.isRead : HostAction → Bool
  | .issue _ => false
  | .readEnc => true
  | .readDec => true

/-- A run of host actions: the state it ends in, and what the host read along the way, `none` for no result (R185,
R189). -/
def hostRun : List HostAction → State → Host.Outcome (State × List (Option ResWord)) Fault Refusal
  | [], s => .next (s, [])
  | .issue x :: rest, s =>
    match step (s.withPort [x]) with
    | .next t => hostRun rest (t.withPort s.port)
    | .fault r => .fault r
    | .refused r => .refused r
  | .readEnc :: rest, s =>
    match hostRun rest s with
    | .next (t, reads) => .next (t, s.encRes :: reads)
    | .fault r => .fault r
    | .refused r => .refused r
  | .readDec :: rest, s =>
    match hostRun rest s with
    | .next (t, reads) => .next (t, s.decRes :: reads)
    | .fault r => .fault r
    | .refused r => .refused r

end Sys2Proof.Machine
end

