-- ==== Sys2Proof/Machine/Pipeline.lean ====
section
/-! DEFINITION. The block's port with its LATENCY apart: a command accepted at step t completes LATENCY steps later, in
acceptance order (R52, R187), and reset discards it while in flight (R181). The step of R24 collapses acceptance and
completion; this layer says what it collapses, for every LATENCY (Log 7). -/

namespace Sys2Proof.Machine

/-- A block and the commands accepted and not completed, oldest first, each with the steps still to go. Each holds its
own captured word (R55, R186). -/
structure Pipelined where
  block    : State
  inflight : List (Nat × CmdWord)
  deriving DecidableEq, Repr

/-- Right after reset nothing is in flight (R181). -/
def Pipelined.reset : Pipelined := { block := State.reset, inflight := [] }

/-- Completes commands in acceptance order (R52). -/
def completeAll (s : State) (q : List (Nat × CmdWord)) : State := q.foldl (fun t e => atomicStep t e.2) s

/-- One step's passing: the oldest commands with no step to go complete, the others have one step less to go. -/
def advance (s : State) (q : List (Nat × CmdWord)) : Pipelined :=
  { block := completeAll s (q.takeWhile (fun e => e.1 == 0)),
    inflight := (q.dropWhile (fun e => e.1 == 0)).map (fun e => (e.1 - 1, e.2)) }

/-- One step at the port: at most one command is accepted, captured as a whole (R52, R55), and whatever is due completes
(R187). With LATENCY 0 the result is there at the end of the same step. Reset discards what is in flight (R181). -/
def tick (latency : Nat) (p : Pipelined) : Pipelined :=
  match p.block.port with
  | [] => advance p.block p.inflight
  | .idle :: rest => advance (p.block.withPort rest) p.inflight
  | .reset :: rest => { block := (p.block.withPort rest).assertReset, inflight := [] }
  | .present c :: rest => advance (p.block.withPort rest) (p.inflight ++ [(latency, commandOf c)])

/-- Several steps at the port. -/
def ticks (latency : Nat) : Nat → Pipelined → Pipelined
  | 0, p => p
  | k + 1, p => ticks latency k (tick latency p)

/-- The block's own LATENCY (R7). -/
def portTick (p : Pipelined) : Pipelined := tick Config.latency p

/-- The state once all that is in flight has completed: what the step of R24 speaks of (R187). -/
def Pipelined.drained (p : Pipelined) : State := completeAll p.block p.inflight

/-- What is in flight has fewer steps to go the longer ago it was accepted, and fewer than LATENCY. -/
def Pipelined.Ordered (latency : Nat) (p : Pipelined) : Prop :=
  (p.inflight.map Prod.fst).Pairwise (· ≤ ·) ∧ ∀ e ∈ p.inflight, e.1 < latency

end Sys2Proof.Machine
end

