-- ==== Sys2Proof/Machine/System.lean ====
section
/-! DEFINITION. INSTANCES blocks and the hosts that share them (R7, R171): each block has its own registers and shares
nothing; hosts that share a block are served one command a step, in an order the spec leaves open (U7; Log 8). -/

namespace Sys2Proof.Machine

/-- The blocks; for each host, what it still presents and to which block; and a plain counter of turns, which the free
order of service is applied to. -/
structure System where
  blocks : List State
  hosts  : List (List (Nat × Input))
  turn   : Nat
  deriving DecidableEq, Repr

/-- INSTANCES blocks right after reset, with what the hosts will present (R31, R171). -/
def System.reset (hosts : List (List (Nat × Input))) : System :=
  { blocks := List.replicate Config.instances State.reset, hosts := hosts, turn := 0 }

/-- One block takes one input in one step (R24, R171). The step never stops (R24), so the other outcomes keep the
block as it is. -/
def deliver (x : Input) (s : State) : State :=
  match step (s.withPort [x]) with
  | .next t => t.withPort s.port
  | .fault _ => s
  | .refused _ => s

/-- One turn: the host whose turn it is has its next input served by the block it names; if it presents nothing, the
turn passes. `grant` says whose turn it is. -/
def System.turnStep (grant : Nat → Nat) (sys : System) : System :=
  match sys.hosts.getD (grant sys.turn) [] with
  | [] => { sys with turn := sys.turn + 1 }
  | (i, x) :: rest =>
    { blocks := sys.blocks.modify i (deliver x),
      hosts := sys.hosts.set (grant sys.turn) rest,
      turn := sys.turn + 1 }

/-- Several turns. -/
def System.turns (grant : Nat → Nat) : Nat → System → System
  | 0, sys => sys
  | k + 1, sys => System.turns grant k (sys.turnStep grant)

/-- A turn in the free order of service (U7). -/
def System.freeTurn (sys : System) : System := sys.turnStep Config.grant

end Sys2Proof.Machine
end

