-- ==== Sys2Proof/Safety.lean ====
section
/-! DEFINITION. What a result register may hold (R66-R68, R79, R111, R112, R142) and the invariant of the block's state. -/

namespace Sys2Proof.Machine

/-- The least value whose minimal width is `w`: one above the bound of the next smaller width (R102). -/
def minimalFrom : Width → Nat
  | .w1 => 0
  | .w2 => Config.max1 + 1
  | .w4 => Config.max2 + 1
  | .w8 => Config.max4 + 1

/-- The four widths (R12). -/
def allWidths : List Width := [.w1, .w2, .w4, .w8]

/-- What VLI.ENC may leave: ValueTooLarge with LEN and DATA 0 (R161, R163), or a success whose DATA holds, in lanes
`0 .. LEN-1`, the minimal wire form of some value (R111), and zeros in the others (R47). -/
def encShape (r : ResWord) : Bool :=
  decide (r = raise .valueTooLarge) ||
  allWidths.any (fun w =>
    decide (r.status = statusOk) && decide (r.len = lenField w) && decide (tagOf (memRead r.data 0) = w.tag) &&
    decide (minimalFrom w ≤ (clearTag w (joinLanes w r.data)).toNat) &&
    allLanes.all (fun k => decide (k.val < w.bytes) || decide (memRead r.data k = 0#8)))

/-- What VLI.DEC may leave: InsufficientData with LEN and DATA 0 (R162, R163), or a success whose DATA is a value its
width holds (R68, R142). -/
def decShape (r : ResWord) : Bool :=
  decide (r = raise .insufficientData) ||
  allWidths.any (fun w =>
    decide (r.status = statusOk) && decide (r.len = lenField w) && decide (r.data.toNat ≤ w.maxValue))

/-- Each register holds nothing, or what a command of its own unit leaves (R22, R66). -/
def State.Inv (s : State) : Prop := s.encRes.all encShape = true ∧ s.decRes.all decShape = true

/-- The instruction is the encoder's; every other row of the table is the decoder's (R22, R84). -/
def isEncoderInstr : Instr → Bool
  | .vliEnc _ _ => true
  | .vliDec _ _ => false
  | .vli1 _ => false
  | .vli2 _ => false
  | .vli4 _ => false
  | .vli8 _ => false

/-- The input may change ENC_RES: a command of the encoder (R22), or reset (R23). -/
def Input.concernsEnc : Input → Bool
  | .present c => isEncoderInstr (fetch c)
  | .idle => false
  | .reset => true

/-- The input may change DEC_RES: a command of the decoder (R22), or reset (R23). -/
def Input.concernsDec : Input → Bool
  | .present c => !isEncoderInstr (fetch c)
  | .idle => false
  | .reset => true

end Sys2Proof.Machine
end

