-- ==== Sys2Proof/Certificates/Slice0/Obligations.lean ====
section
/-! DEFINITION. The statements for the provers, in the order of the spec's files. Each names the rule it formalises. -/

open Sys2Proof Sys2Proof.Machine

/-! ### State, reset, the step (10_state.md, 70_reset_and_hazards.md) -/

/-- R31: after reset both registers have VALID 0, STATUS 00, LEN 0, DATA 0. -/
def Obligations.ResetStateHasNoResults : Prop :=
  ∀ r, (r = State.reset.encRes ∨ r = State.reset.decRes) →
    valid r = 0#1 ∧ (portView r).status = 0b00#2 ∧ (portView r).len = 0#4 ∧ (portView r).data = 0#64

/-- R180: asserting reset puts both registers at VALID 0, STATUS 00, LEN 0, DATA 0, from every state. -/
def Obligations.ResetEventClearsBothRegisters : Prop :=
  ∀ s rest, s.port = .reset :: rest →
    ∃ t, step s = .next t ∧
      ∀ r, (r = t.encRes ∨ r = t.decRes) →
        valid r = 0#1 ∧ (portView r).status = 0b00#2 ∧ (portView r).len = 0#4 ∧ (portView r).data = 0#64

/-- R24: a command word runs as the atomic step on both registers, and no 69-bit word stops the block. -/
def Obligations.CommandWordRunsAtomicStep : Prop :=
  ∀ s w rest, s.port = .present (.cmd w) :: rest →
    (w.getLsbD 68 = false →
      ∃ t, step s = .next t ∧ t.encRes = some (encodeResult (w.extractLsb' 0 64)) ∧ t.decRes = s.decRes) ∧
    (w.getLsbD 68 = true →
      ∃ t, step s = .next t ∧ t.encRes = s.encRes ∧
        t.decRes = some (decodeResult (w.extractLsb' 0 64) (w.extractLsb' 64 4)))

/-- The step always completes (R24), whatever is presented: words, whole or short source bytes, reset, nothing. That it
takes one entry of the port, and leaves the later ones presented even at reset, is the model's own (Log 1, Log 9). -/
def Obligations.StepAlwaysAnswersNext : Prop :=
  ∀ s, ∃ t, step s = .next t ∧ t.port = s.port.tail

/-- A step runs the decoded instruction: when what is presented decodes to `i`, the step is `exec i` with that input
taken from the port. -/
def Obligations.StepRunsDecodedInstruction : Prop :=
  ∀ s c rest i tail, s.port = .present c :: rest → decode c = .ok (i, tail) → step s = exec i { s with port := rest }

/-- `withFetchWord` makes the very next step run the instruction `decodeTableWord` gives. The numbering of a row's bits
is the model's reading of the opcode table (Log 4). -/
def Obligations.FetchWordRunsTableInstruction : Prop :=
  ∀ s nbits w i, decodeTableWord nbits w = some i → step (s.withFetchWord nbits w) = exec i s

/-- With nothing presented the block is idle: its registers stay (R189). That such a step is a step is
the model's own (Log 16). -/
def Obligations.IdleStepKeepsRegisters : Prop :=
  (∀ s, s.port = [] → step s = .next s) ∧
  ∀ s rest, s.port = .idle :: rest → step s = .next { s with port := rest }

/-- R131, R133, R162 at the port: source bytes that hold no whole form complete with InsufficientData. -/
def Obligations.ShortSourceGivesInsufficientData : Prop :=
  ∀ s bytes rest, s.port = .present (.wire bytes) :: rest →
    (bytes = [] ∨ ∃ b0 bs, bytes = b0 :: bs ∧ bytes.length < 2 ^ (b0.extractLsb' 6 2).toNat) →
    step s = .next { s with decRes := some { status := 0b10#2, len := 0#4, data := 0#64 }, port := rest }

/-- Dispatching on the wire form (R84) and the VLI.DEC of the window the host loads (R43) are the same step, whatever the
host leaves in the lanes past the bytes (U8) and whichever AVAIL from 8 to 15 it sets. The wire form as an instruction
is the model's reading (Log 3). -/
def Obligations.WireDispatchEqualsLoadedVliDec : Prop :=
  ∀ s bytes rest, s.port = .present (.wire bytes) :: rest →
    ∀ fill extra, step s = exec (.vliDec (availOf extra bytes) (windowOf fill bytes)) { s with port := rest }

/-! ### Which state a command touches (10_state.md R22, R32; 20_memory.md R50) -/

/-- The frame of VLI.ENC: DEC_RES, every lane of it, and what the host presents are unchanged. -/
def Obligations.EncoderFrame : Prop :=
  ∀ ign value s t, exec (.vliEnc ign value) s = .next t →
    t.decRes = s.decRes ∧ t.port = s.port ∧
    ∀ k, memRead (portView t.decRes).data k = memRead (portView s.decRes).data k

/-- The frame of VLI.DEC and of the wire forms: ENC_RES, every lane of it, and what the host presents are unchanged. -/
def Obligations.DecoderFrame : Prop :=
  ∀ i s t, ((∃ avail win, i = .vliDec avail win) ∨ (∃ v, i = .vli1 v) ∨ (∃ v, i = .vli2 v) ∨ (∃ v, i = .vli4 v) ∨
      ∃ v, i = .vli8 v) →
    exec i s = .next t →
    t.encRes = s.encRes ∧ t.port = s.port ∧
    ∀ k, memRead (portView t.encRes).data k = memRead (portView s.encRes).data k

/-- R50, R30: performing a command twice leaves what performing it once does. -/
def Obligations.CommandsAreIdempotent : Prop :=
  ∀ i s t, exec i s = .next t → exec i t = .next t

/-- Noninterference of the units over whole runs (R32, R53): ENC_RES after a run depends on the inputs that concern the
encoder alone, wherever the others stand between them; so for DEC_RES. The runs are over the model's list of inputs
(Log 1). -/
def Obligations.UnitsDoNotInterfereOverRuns : Prop :=
  ∀ s s' t t' : State, Host.Core.run core s.port.length s = .next t → Host.Core.run core s'.port.length s' = .next t' →
    (s.encRes = s'.encRes → s'.port = s.port.filter Input.concernsEnc → t.encRes = t'.encRes) ∧
    (s.decRes = s'.decRes → s'.port = s.port.filter Input.concernsDec → t.decRes = t'.decRes)

/-- R52, R184: a unit's register holds a command's result until the next command of that unit (or reset), however many
commands of the other unit follow. The run is over the model's list of inputs (Log 1). -/
def Obligations.RegisterHoldsLatestResult : Prop :=
  ∀ (s t : State) w later, s.port = .present (.cmd w) :: later → Host.Core.run core s.port.length s = .next t →
    (cmdOp w = 0#1 → (∀ x ∈ later, x.concernsEnc = false) → t.encRes = some (encodeResult (cmdOperand w))) ∧
    (cmdOp w = 1#1 → (∀ x ∈ later, x.concernsDec = false) →
      t.decRes = some (decodeResult (cmdOperand w) (cmdAvail w)))

/-! ### Encodings (30_encoding.md) -/

/-- R61: CMD[68] selects the command, the other fields are its operands, and no word is rejected. -/
def Obligations.OpcodeBitSelectsCommand : Prop :=
  ∀ w : CmdWord,
    (w.getLsbD 68 = false → decode (.cmd w) = .ok (.vliEnc (w.extractLsb' 64 4) (w.extractLsb' 0 64), [])) ∧
    (w.getLsbD 68 = true → decode (.cmd w) = .ok (.vliDec (w.extractLsb' 64 4) (w.extractLsb' 0 64), []))

/-- R64: the result of a VLI.ENC word does not depend on CMD[67:64]. -/
def Obligations.EncoderIgnoresAvailField : Prop :=
  ∀ (w w' : CmdWord) s, w.getLsbD 68 = false → w'.getLsbD 68 = false → w.extractLsb' 0 64 = w'.extractLsb' 0 64 →
    exec (decodeCmd w) s = exec (decodeCmd w') s

/-- R75: tags and widths name each other, and `w = 2^tag`. -/
def Obligations.TagsAndWidthsAreBijective : Prop :=
  (∀ w, Width.ofTag w.tag = w ∧ w.bytes = 2 ^ w.tag.toNat ∧ w.tag.toNat = Nat.log2 w.bytes) ∧
  ∀ t, (Width.ofTag t).tag = t

/-- R74, R76: a form's length is known from its first byte alone, and every byte sequence of that length or more
decodes. A shorter one (R133) is rejected by the name of the width it lacks: the named reject is the model's own (Log 5), and
the block reports no width (R162). -/
def Obligations.FirstByteDecidesWireLength : Prop :=
  ∀ b0 bs,
    (2 ^ (b0.extractLsb' 6 2).toNat ≤ bs.length + 1 →
      ∃ i, decodeWire (b0 :: bs) = .ok (i, (b0 :: bs).drop (2 ^ (b0.extractLsb' 6 2).toNat))) ∧
    (bs.length + 1 < 2 ^ (b0.extractLsb' 6 2).toNat → decodeWire (b0 :: bs) = .error (.shortSource (widthOf b0)))

/-- Decode and encode agree on every instruction with every operand, and a wire form is read off the front of whatever
bytes follow it. That VLI.ENC's ignored field is an operand is the model's choice (Log 15). -/
def Obligations.DecodeOfEncodeIsIdentity : Prop :=
  ∀ i, decode (encode i) = .ok (i, []) ∧
    ∀ bytes rest, encode i = .wire bytes → decode (.wire (bytes ++ rest)) = .ok (i, rest)

/-- The other direction: the code of exactly one instruction is that instruction's encoding, so no two codes decode to the
same term. For command words this rests on the model's choice to carry VLI.ENC's ignored CMD[67:64] as an operand (Log 15):
two words that differ there alone are two terms, and by R64 one command (EncoderIgnoresAvailField). -/
def Obligations.EncodeOfDecodeIsIdentity : Prop :=
  ∀ c i tail, c.wf = true → decode c = .ok (i, tail) → encode i = c ∧ tail = []

/-- Words written out from the encodings of R60 and R70-R73 decode to the instructions they stand for. -/
def Obligations.SpecWordsDecodeAsWritten : Prop :=
  decode (.cmd 0b0_0000_0000000000000000000000000000000000000000000000000000000100000001#69) =
    .ok (.vliEnc 0#4 257#64, []) ∧
  decode (.cmd 0b1_0010_0100000100000001000000000000000000000000000000000000000000000000#69) =
    .ok (.vliDec 2#4 0x4101000000000000#64, []) ∧
  decode (.wire [0b00000011#8]) = .ok (.vli1 3#6, []) ∧
  decode (.wire [0b01000001#8, 0b00000001#8]) = .ok (.vli2 257#14, []) ∧
  decode (.wire [0b10000001#8, 0b00000001#8, 0b00000001#8, 0b00000001#8]) = .ok (.vli4 16843009#30, []) ∧
  decode (.wire [0b11000001#8, 0b00000001#8, 0b00000001#8, 0b00000001#8, 0b00000001#8, 0b00000001#8, 0b00000001#8,
    0b00000001#8]) = .ok (.vli8 72340172838076673#62, [])

/-- R66, R67, R79: the codes each unit produces, STATUS 11 never; LEN is 0 exactly on error, 1, 2, 4 or 8 else, and
on error DATA is 0. -/
def Obligations.StatusAndLengthOfResults : Prop :=
  (∀ value, (encodeResult value).status = 0b00#2 ∨ (encodeResult value).status = 0b01#2) ∧
  (∀ win avail, (decodeResult win avail).status = 0b00#2 ∨ (decodeResult win avail).status = 0b10#2) ∧
  ∀ r, ((∃ value, r = encodeResult value) ∨ ∃ win avail, r = decodeResult win avail) →
    r.status ≠ 0b11#2 ∧ (r.len = 0#4 ↔ r.status ≠ 0b00#2) ∧ (r.status ≠ 0b00#2 → r.data = 0#64) ∧
    (r.status = 0b00#2 → r.len = 1#4 ∨ r.len = 2#4 ∨ r.len = 4#4 ∨ r.len = 8#4)

/-- R65: the result word's bits are STATUS [69:68], LEN [67:64], DATA [63:0]. -/
def Obligations.ResultWordLayout : Prop :=
  ∀ r : ResWord, r.bits.extractLsb' 68 2 = r.status ∧ r.bits.extractLsb' 64 4 = r.len ∧ r.bits.extractLsb' 0 64 = r.data

/-! ### The assembler (R64, R80-R82) -/

/-- R80, R81: the words VLI.ENC and VLI.DEC assemble to, and what the assembler refuses. Refusing a VLI.DEC
out of range is the model's reading (Log 10). -/
def Obligations.AssemblerEncodesOrRefuses : Prop :=
  (∀ value, assemble (.enc value) =
    if value < 2 ^ 64 then some (0#1 ++ 0b0000#4 ++ BitVec.ofNat 64 value : BitVec (1 + 4 + 64)) else none) ∧
  ∀ avail win, assemble (.dec avail win) =
    if avail ≤ 15 ∧ win < 2 ^ 64 then
      some (1#1 ++ BitVec.ofNat 4 avail ++ BitVec.ofNat 64 win : BitVec (1 + 4 + 64)) else none

/-- R82: VLI.DECB expands to one VLI.DEC of its k bytes, byte j shifted to bits [63-8j : 56-8j]. -/
def Obligations.DecbExpandsToVliDec : Prop :=
  ∀ bytes : List Nat, bytes.length ≤ 8 → (∀ b ∈ bytes, b < 256) →
    assemble (.decb bytes) = assemble (.dec bytes.length
      ((List.range bytes.length).foldl (fun x j => x ||| bytes.getD j 0 <<< (56 - 8 * j)) 0))

/-- R64, R80: what the assembler emits is exactly the assemblable commands: it writes the ignored field as 0. -/
def Obligations.AssemblerEmitsAssemblableCommands : Prop :=
  (∀ a w, assemble a = some w → (decodeCmd w).assemblable = true) ∧
  ∀ i, i.assemblable = true → ∃ a w, assemble a = some w ∧ decodeCmd w = i

/-! ### The encoder (40_encode.md) -/

/-- R106: VLI.ENC is its pseudocode, in exact natural arithmetic (R8), from every state. -/
def Obligations.VliEncIsItsPseudocode : Prop :=
  ∀ ign (value : Word) s,
    let res : ResWord :=
      if 2 ^ 62 - 1 < value.toNat then { status := 0b01#2, len := 0#4, data := 0#64 }
      else
        let w := if value.toNat ≤ 63 then 1 else if value.toNat ≤ 16383 then 2
          else if value.toNat ≤ 1073741823 then 4 else 8
        let W := (Nat.log2 w <<< (8 * w - 2)) ||| value.toNat
        { status := 0b00#2, len := BitVec.ofNat 4 w, data := BitVec.ofNat 64 (W <<< (64 - 8 * w)) }
    exec (.vliEnc ign value) s = .next { s with encRes := some res }

/-- R161: ValueTooLarge exactly when VALUE > 2^62 - 1, that is, when VALUE[63:62] is not 00; LEN and DATA are 0; VLI.DEC
never raises it. -/
def Obligations.ValueTooLargeExactlyAboveMax : Prop :=
  (∀ ign (value : Word) s, 2 ^ 62 - 1 < value.toNat →
    exec (.vliEnc ign value) s = .next { s with encRes := some { status := 0b01#2, len := 0#4, data := 0#64 } }) ∧
  (∀ value : Word, (2 ^ 62 - 1 < value.toNat ↔ value.extractLsb' 62 2 ≠ 0b00#2) ∧
    ((encodeResult value).status = 0b01#2 ↔ 2 ^ 62 - 1 < value.toNat)) ∧
  ∀ win avail, (decodeResult win avail).status ≠ 0b01#2

/-- R107: the 1-byte output form. -/
def Obligations.EncodeToVli1 : Prop :=
  ∀ ign (value : Word) s, value.toNat ≤ 63 →
    exec (.vliEnc ign value) s =
      .next { s with encRes := some { status := 0b00#2, len := 1#4, data := value <<< 56 } } ∧
    memRead (value <<< 56) 0 = value.setWidth 8 ∧ memRead (value <<< 56) 0 = 0b00#2 ++ value.extractLsb' 0 6

/-- R108: the 2-byte output form. -/
def Obligations.EncodeToVli2 : Prop :=
  ∀ ign (value : Word) s, 64 ≤ value.toNat → value.toNat ≤ 16383 →
    exec (.vliEnc ign value) s =
      .next { s with encRes := some { status := 0b00#2, len := 2#4, data := (0x4000#64 ||| value) <<< 48 } } ∧
    memRead ((0x4000#64 ||| value) <<< 48) 0 = 0x40#8 ||| (value.extractLsb' 8 6).setWidth 8 ∧
    memRead ((0x4000#64 ||| value) <<< 48) 1 = value.extractLsb' 0 8

/-- R109: the 4-byte output form. -/
def Obligations.EncodeToVli4 : Prop :=
  ∀ ign (value : Word) s, 16384 ≤ value.toNat → value.toNat ≤ 1073741823 →
    exec (.vliEnc ign value) s =
      .next { s with encRes := some { status := 0b00#2, len := 4#4, data := (0x80000000#64 ||| value) <<< 32 } } ∧
    memRead ((0x80000000#64 ||| value) <<< 32) 0 = 0x80#8 ||| (value.extractLsb' 24 6).setWidth 8 ∧
    memRead ((0x80000000#64 ||| value) <<< 32) 1 = value.extractLsb' 16 8 ∧
    memRead ((0x80000000#64 ||| value) <<< 32) 2 = value.extractLsb' 8 8 ∧
    memRead ((0x80000000#64 ||| value) <<< 32) 3 = value.extractLsb' 0 8

/-- R110: the 8-byte output form. -/
def Obligations.EncodeToVli8 : Prop :=
  ∀ ign (value : Word) s, 1073741824 ≤ value.toNat → value.toNat ≤ 4611686018427387903 →
    exec (.vliEnc ign value) s =
      .next { s with encRes := some { status := 0b00#2, len := 8#4, data := 0xC000000000000000#64 ||| value } } ∧
    memRead (0xC000000000000000#64 ||| value) 0 = 0xC0#8 ||| (value.extractLsb' 56 6).setWidth 8 ∧
    ∀ k : LaneIx, 1 ≤ k.val → memRead (0xC000000000000000#64 ||| value) k = value.extractLsb' (56 - 8 * k.val) 8

/-- R111 (and R102's choice): on success LEN is the smallest of 1, 2, 4, 8 whose payload holds the value, and the LEN
bytes appended are the wire form that carries that value. -/
def Obligations.EncoderWidthIsMinimal : Prop :=
  ∀ value : Word, (encodeResult value).status = 0b00#2 →
    (∃ w ∈ [1, 2, 4, 8], (encodeResult value).len.toNat = w ∧ value.toNat ≤ 2 ^ (8 * w - 2) - 1 ∧
      ∀ w' ∈ [1, 2, 4, 8], value.toNat ≤ 2 ^ (8 * w' - 2) - 1 → w ≤ w') ∧
    ∃ i, encode i = .wire (resultBytes (encodeResult value)) ∧
      ((∃ v, i = .vli1 v ∧ v.setWidth 64 = value) ∨ (∃ v, i = .vli2 v ∧ v.setWidth 64 = value) ∨
        (∃ v, i = .vli4 v ∧ v.setWidth 64 = value) ∨ ∃ v, i = .vli8 v ∧ v.setWidth 64 = value)

/-- R103: for values in range the bit-test form selects the same width. -/
def Obligations.BitTestFormSelectsSameWidth : Prop :=
  ∀ value : Word, value.toNat ≤ 2 ^ 62 - 1 → selectWidth value = some (selectWidthBits value)

/-- R104, R113: the tag packer's OR meets only zero bits: W is exactly `tag * 2^(8w-2) + VALUE`, an 8w-bit word. -/
def Obligations.TagPackerIsExact : Prop :=
  ∀ (w : Width) (value : Word), value.toNat < 2 ^ (8 * w.bytes - 2) →
    (packTag w value).toNat = w.tag.toNat * 2 ^ (8 * w.bytes - 2) + value.toNat ∧
    (packTag w value).toNat < 2 ^ (8 * w.bytes)

/-- R105, R47: the writer puts byte k of W, most significant first, into lane k, zeros into lanes w..7, and DATA is W
left-justified. -/
def Obligations.WriterEmitsBigEndianLanes : Prop :=
  ∀ (w : Width) (W : Word), W.toNat < 2 ^ (8 * w.bytes) →
    writeLanes w W = W <<< (64 - 8 * w.bytes) ∧
    ∀ k : LaneIx,
      (k.val < w.bytes → memRead (writeLanes w W) k = W.extractLsb' (8 * w.bytes - 8 - 8 * k.val) 8) ∧
      (w.bytes ≤ k.val → memRead (writeLanes w W) k = 0#8)

/-! ### The decoder (41_decode.md) -/

/-- R135: VLI.DEC is its pseudocode, in exact natural arithmetic (R8), from every state. -/
def Obligations.VliDecIsItsPseudocode : Prop :=
  ∀ (avail : BitVec 4) (win : Word) s,
    let w := 1 <<< (win.extractLsb' 62 2).toNat
    let res : ResWord :=
      if avail.toNat = 0 then { status := 0b10#2, len := 0#4, data := 0#64 }
      else if avail.toNat < w then { status := 0b10#2, len := 0#4, data := 0#64 }
      else
        let W := win.toNat >>> (64 - 8 * w)
        { status := 0b00#2, len := BitVec.ofNat 4 w, data := BitVec.ofNat 64 (W % 2 ^ (8 * w - 2)) }
    exec (.vliDec avail win) s = .next { s with decRes := some res }

/-- R162: InsufficientData exactly when AVAIL = 0 or AVAIL < 1 << WIN[63:62]; LEN and DATA are 0; VLI.ENC never raises
it. -/
def Obligations.InsufficientDataExactlyWhenShort : Prop :=
  (∀ (avail : BitVec 4) (win : Word) s, (avail = 0#4 ∨ avail.toNat < 2 ^ (win.extractLsb' 62 2).toNat) →
    exec (.vliDec avail win) s = .next { s with decRes := some { status := 0b10#2, len := 0#4, data := 0#64 } }) ∧
  (∀ (avail : BitVec 4) (win : Word), (decodeResult win avail).status = 0b10#2 ↔
    (avail = 0#4 ∨ avail.toNat < 2 ^ (win.extractLsb' 62 2).toNat)) ∧
  ∀ value, (encodeResult value).status ≠ 0b10#2

/-- R136: the 1-byte input form. -/
def Obligations.DecodeVli1 : Prop :=
  ∀ (avail : BitVec 4) (win : Word) s, (memRead win 0).extractLsb' 6 2 = 0b00#2 → 1 ≤ avail.toNat →
    ∀ data : Word, data = ((memRead win 0).extractLsb' 0 6).setWidth 64 →
    exec (.vliDec avail win) s = .next { s with decRes := some { status := 0b00#2, len := 1#4, data := data } } ∧
    data = (memRead win 0).setWidth 64 ∧ data.toNat ≤ 63

/-- R137: the 2-byte input form. -/
def Obligations.DecodeVli2 : Prop :=
  ∀ (avail : BitVec 4) (win : Word) s, (memRead win 0).extractLsb' 6 2 = 0b01#2 → 2 ≤ avail.toNat →
    ∀ data : Word, data = ((memRead win 0).extractLsb' 0 6).setWidth 64 <<< 8 ||| (memRead win 1).setWidth 64 →
    exec (.vliDec avail win) s = .next { s with decRes := some { status := 0b00#2, len := 2#4, data := data } } ∧
    data.toNat ≤ 16383

/-- R138: the 4-byte input form. -/
def Obligations.DecodeVli4 : Prop :=
  ∀ (avail : BitVec 4) (win : Word) s, (memRead win 0).extractLsb' 6 2 = 0b10#2 → 4 ≤ avail.toNat →
    ∀ data : Word, data = ((memRead win 0).extractLsb' 0 6).setWidth 64 <<< 24 ||| (memRead win 1).setWidth 64 <<< 16 |||
      (memRead win 2).setWidth 64 <<< 8 ||| (memRead win 3).setWidth 64 →
    exec (.vliDec avail win) s = .next { s with decRes := some { status := 0b00#2, len := 4#4, data := data } } ∧
    data.toNat ≤ 1073741823

/-- R139: the 8-byte input form. -/
def Obligations.DecodeVli8 : Prop :=
  ∀ (avail : BitVec 4) (win : Word) s, (memRead win 0).extractLsb' 6 2 = 0b11#2 → 8 ≤ avail.toNat →
    ∀ data : Word, data = ((memRead win 0).extractLsb' 0 6).setWidth 64 <<< 56 ||| (memRead win 1).setWidth 64 <<< 48 |||
      (memRead win 2).setWidth 64 <<< 40 ||| (memRead win 3).setWidth 64 <<< 32 ||| (memRead win 4).setWidth 64 <<< 24 |||
      (memRead win 5).setWidth 64 <<< 16 ||| (memRead win 6).setWidth 64 <<< 8 ||| (memRead win 7).setWidth 64 →
    exec (.vliDec avail win) s = .next { s with decRes := some { status := 0b00#2, len := 8#4, data := data } } ∧
    data = win &&& 0x3FFFFFFFFFFFFFFF#64 ∧ data.toNat ≤ 4611686018427387903

/-- R136-R139 for the rows VLI1, VLI2, VLI4, VLI8 themselves: a wire form, minimal for its value or not (R77, R140),
performs its decode from every state: STATUS 00, LEN the form's width, DATA its value. The wire form as an instruction is
the model's reading (Log 3). -/
def Obligations.WireFormsDecodeToTheirValue : Prop :=
  (∀ v s, exec (.vli1 v) s =
    .next { s with decRes := some { status := 0b00#2, len := 1#4, data := v.setWidth 64 } }) ∧
  (∀ v s, exec (.vli2 v) s =
    .next { s with decRes := some { status := 0b00#2, len := 2#4, data := v.setWidth 64 } }) ∧
  (∀ v s, exec (.vli4 v) s =
    .next { s with decRes := some { status := 0b00#2, len := 4#4, data := v.setWidth 64 } }) ∧
  ∀ v s, exec (.vli8 v) s =
    .next { s with decRes := some { status := 0b00#2, len := 8#4, data := v.setWidth 64 } }

/-- R48: a VLI.DEC reads lane 0 whenever AVAIL >= 1, and lanes 1..w-1 when AVAIL >= w as well; windows that agree in the
lanes below w and below AVAIL give the same result. -/
def Obligations.DecoderReadsOnlyItsLanes : Prop :=
  (∀ (win : Word) (avail : BitVec 4) (k : LaneIx), k ∈ lanesRead win avail ↔
    (k.val = 0 ∧ 1 ≤ avail.toNat) ∨
    (k.val < 2 ^ (win.extractLsb' 62 2).toNat ∧ 2 ^ (win.extractLsb' 62 2).toNat ≤ avail.toNat)) ∧
  ∀ (win win' : Word) (avail : BitVec 4),
    (∀ k : LaneIx, k.val < 2 ^ (win.extractLsb' 62 2).toNat → k.val < avail.toNat → memRead win k = memRead win' k) →
    decodeResult win avail = decodeResult win' avail

/-- R42, R133: AVAIL from 8 to 15 all mean at least 8: every window decodes, and to the same result. -/
def Obligations.AvailAboveEightActsAsEight : Prop :=
  ∀ (win : Word) (avail : BitVec 4), 8 ≤ avail.toNat →
    (decodeResult win avail).status = 0b00#2 ∧ decodeResult win avail = decodeResult win 8#4

/-- R68, R142: a successful VLI.DEC returns DATA below 2^(8 LEN - 2), so at most 2^62 - 1, with DATA[63:62] = 00. -/
def Obligations.DecodedValueIsInRange : Prop :=
  ∀ (win : Word) (avail : BitVec 4), (decodeResult win avail).status = 0b00#2 →
    (decodeResult win avail).data.toNat ≤ 2 ^ 62 - 1 ∧
    (decodeResult win avail).data.toNat ≤ 2 ^ (8 * (decodeResult win avail).len.toNat - 2) - 1 ∧
    (decodeResult win avail).data.extractLsb' 62 2 = 0b00#2

/-- R140: a success never has LEN below the minimal width of its value, a non-minimal form is not told apart in the result,
and the host's check by re-encoding accepts exactly the windows that begin with the encoder's own bytes. -/
def Obligations.CanonicalCheckIsExact : Prop :=
  ∀ (win : Word) (avail : BitVec 4), (decodeResult win avail).status = 0b00#2 →
    (encodeResult (decodeResult win avail).data).status = 0b00#2 ∧
    (encodeResult (decodeResult win avail).data).len.toNat ≤ (decodeResult win avail).len.toNat ∧
    (canonicalCheck (decodeResult win avail) = true ↔
      resultBytes (encodeResult (decodeResult win avail).data) =
        (allLanes.take (decodeResult win avail).len.toNat).map (memRead win))

/-! ### The whole block -/

/-- R141: the round trip. After a successful VLI.ENC v, a VLI.DEC of its LEN and DATA gives STATUS 00, v, and the same
LEN, and leaves the encoder's result. -/
def Obligations.RoundTripGivesValueBack : Prop :=
  ∀ ign (v : Word) s, v.toNat ≤ 2 ^ 62 - 1 →
    ∃ r t u, exec (.vliEnc ign v) s = .next t ∧ t.encRes = some r ∧ r.status = 0b00#2 ∧
      exec (.vliDec r.len r.data) t = .next u ∧
      u.decRes = some { status := 0b00#2, len := r.len, data := v } ∧ u.encRes = some r

/-- The round trip through the host's buffers (R43, R141): the bytes a host appends for v, followed by any others, decode
to v as a VLI.DEC of the window the host loads, and the cursor then stands at those others, whatever the lanes past the
bytes hold and whichever AVAIL from 8 to 15 the host sets (free values, Log 5, Log 6). -/
def Obligations.EncodedStreamDecodesAtCursor : Prop :=
  ∀ (v : Word) rest s, v.toNat ≤ 2 ^ 62 - 1 →
    ∃ r t, exec (loadSource (appendResult [] (encodeResult v) ++ rest)) s = .next t ∧ t.decRes = some r ∧
      r.status = 0b00#2 ∧ r.data = v ∧ r.len = (encodeResult v).len ∧
      advanceCursor (appendResult [] (encodeResult v) ++ rest) r = rest

/-- Each register holds nothing or what its unit leaves, and every step keeps it so (R22, R66, R67, R111, R142). -/
def Obligations.StepKeepsResultShapes : Prop :=
  ∀ s t : State, s.Inv → step s = .next t → t.Inv

/-- The invariant holds after reset. -/
def Obligations.ResetHasResultShapes : Prop := State.reset.Inv

/-- R185, U2, U4: reading a register that holds no result yields none; in every state of the invariant any other read gives
the register's result, and none shows the reserved STATUS. The two named outcomes are the model's (Log 11). -/
def Obligations.HostReadsResultOrNone : Prop :=
  (∀ r, valid r = 0#1 → hostRead r = .refused .noResult) ∧
  ∀ s : State, s.Inv → ∀ r, (r = s.encRes ∨ r = s.decRes) → valid r = 1#1 → hostRead r = .next (portView r)

/-- R22, R50, R189: a host's run always completes and its reads change nothing: the run without them ends in the same
state. Each read yields one entry, in order: what the register read holds where the run then stands. That a read with
VALID = 0 is recorded as no result and passed over is the model's (Log 11). -/
def Obligations.HostReadsChangeNothing : Prop :=
  ∀ acts s, ∃ t reads, hostRun acts s = .next (t, reads) ∧
    hostRun (acts.filter (fun a => !a.isRead)) s = .next (t, []) ∧
    reads.length = (acts.filter HostAction.isRead).length ∧ t.port = s.port ∧
    ∀ before after,
      (acts = before ++ .readEnc :: after → ∃ u earlier later,
        hostRun before s = .next (u, earlier) ∧ reads = earlier ++ u.encRes :: later) ∧
      (acts = before ++ .readDec :: after → ∃ u earlier later,
        hostRun before s = .next (u, earlier) ∧ reads = earlier ++ u.decRes :: later)

/-! ### Latency and instances (R171, R181, R187) -/

/-- R187: for every LATENCY the port, with acceptance and completion apart, refines the step of R24: what it holds once all
that is in flight has completed moves as the step does. The layer is the model's (Log 7). -/
def Obligations.PortRefinesAtomicStep : Prop :=
  ∀ latency p, p.Ordered latency →
    (tick latency p).Ordered latency ∧ step p.drained = .next (tick latency p).drained

/-- R187: a command accepted at a step with nothing in flight completes LATENCY steps later: till then the registers stay,
and with that step its unit's register shows its result. The layer is the model's (Log 7). -/
def Obligations.CommandCompletesAfterLatency : Prop :=
  ∀ latency p c, p.inflight = [] → p.block.port = .present c :: List.replicate latency .idle →
    (∀ k, k ≤ latency → (ticks latency k p).block.encRes = p.block.encRes ∧
      (ticks latency k p).block.decRes = p.block.decRes) ∧
    (ticks latency (latency + 1) p).inflight = [] ∧
    (ticks latency (latency + 1) p).block = (atomicStep p.block (commandOf c)).withPort []

/-- R181: reset discards what is in flight: no result is written, then or later. The layer is the model's
(Log 7). -/
def Obligations.ResetDiscardsInFlight : Prop :=
  ∀ latency p rest, p.block.port = .reset :: rest → (∀ x ∈ rest, x = .idle) →
    ∀ k, (ticks latency (k + 1) p).inflight = [] ∧ (ticks latency (k + 1) p).block.encRes = none ∧
      (ticks latency (k + 1) p).block.decRes = none

/-- R171: blocks share nothing: whosever turn it is, a turn changes at most the block the served input names, as that
block's own step does. The turn-taking layer is the model's (Log 8). -/
def Obligations.InstancesShareNothing : Prop :=
  ∀ (grant : Nat → Nat) (sys : System) i x rest, sys.hosts.getD (grant sys.turn) [] = (i, x) :: rest →
    (∀ j, j ≠ i → (sys.turnStep grant).blocks[j]? = sys.blocks[j]?) ∧
    ∀ s, sys.blocks[i]? = some s →
      ∃ t, step (s.withPort [x]) = .next t ∧ (sys.turnStep grant).blocks[i]? = some (t.withPort s.port)
end

