-- ==== Sys2Proof/Laws/Encoding.lean ====
section
/-! SUPPORT. Widths and tags, the fields of a command word, and what reading a wire form comes to. -/

namespace Sys2Proof

@[simp] theorem Width.ofTag_tag (w : Width) : Width.ofTag w.tag = w := by cases w <;> decide

theorem Width.tag_ofTag (t : BitVec 2) : (Width.ofTag t).tag = t := by revert t; decide

theorem Width.bytes_ofTag (t : BitVec 2) : (Width.ofTag t).bytes = 2 ^ t.toNat := by revert t; decide

theorem bytes_widthOf (b : Byte) : (widthOf b).bytes = 2 ^ (b.extractLsb' 6 2).toNat := Width.bytes_ofTag _

theorem tag_widthOf (b : Byte) : (widthOf b).tag = b.extractLsb' 6 2 := Width.tag_ofTag _

theorem Width.bytes_le_eight (w : Width) : w.bytes ≤ 8 := by cases w <;> decide

theorem Width.bytes_pos (w : Width) : 0 < w.bytes := by cases w <;> decide

@[simp] theorem decodeWire_nil : decodeWire [] = .error .emptySource := rfl

theorem decodeWire_cons (b0 : Byte) (rest : List Byte) :
    decodeWire (b0 :: rest) = readForm (widthOf b0) b0 rest := rfl

/-- A form with enough bytes is read, and what follows it is left. -/
theorem readForm_ok (w : Width) (b0 : Byte) (rest : List Byte) (h : w.bytes ≤ rest.length + 1) :
    ∃ i, readForm w b0 rest = .ok (i, (b0 :: rest).drop w.bytes) := by
  match w, rest, h with
  | .w1, _, _ => exact ⟨_, rfl⟩
  | .w2, _ :: _, _ => exact ⟨_, rfl⟩
  | .w4, _ :: _ :: _ :: _, _ => exact ⟨_, rfl⟩
  | .w8, _ :: _ :: _ :: _ :: _ :: _ :: _ :: _, _ => exact ⟨_, rfl⟩
  | .w2, [], h => simp [Width.bytes] at h
  | .w4, [], h | .w4, [_], h | .w4, [_, _], h => simp [Width.bytes] at h
  | .w8, [], h | .w8, [_], h | .w8, [_, _], h | .w8, [_, _, _], h | .w8, [_, _, _, _], h | .w8, [_, _, _, _, _], h
  | .w8, [_, _, _, _, _, _], h => simp [Width.bytes] at h

/-- A form with too few bytes is rejected, by the width it lacks. -/
theorem readForm_short (w : Width) (b0 : Byte) (rest : List Byte) (h : rest.length + 1 < w.bytes) :
    readForm w b0 rest = .error (.shortSource w) := by
  match w, rest, h with
  | .w1, _, h => simp [Width.bytes] at h
  | .w2, [], _ => rfl
  | .w4, [], _ | .w4, [_], _ | .w4, [_, _], _ => rfl
  | .w8, [], _ | .w8, [_], _ | .w8, [_, _], _ | .w8, [_, _, _], _ | .w8, [_, _, _, _], _ | .w8, [_, _, _, _, _], _
  | .w8, [_, _, _, _, _, _], _ => rfl
  | .w2, _ :: _, h => simp [Width.bytes] at h
  | .w4, _ :: _ :: _ :: _, h => simp only [Width.bytes, List.length_cons] at h; omega
  | .w8, _ :: _ :: _ :: _ :: _ :: _ :: _ :: _, h => simp only [Width.bytes, List.length_cons] at h; omega

theorem cmdOp_eq_zero_iff (w : CmdWord) : cmdOp w = 0#1 ↔ w.getLsbD 68 = false := by
  constructor
  · intro h
    have := congrArg (fun x : BitVec 1 => x.getLsbD 0) h
    simpa [cmdOp, BitVec.getLsbD_extractLsb'] using this
  · intro h
    apply BitVec.eq_of_getLsbD_eq
    intro i hi
    obtain rfl : i = 0 := by omega
    simpa [cmdOp, BitVec.getLsbD_extractLsb'] using h

theorem decodeCmd_of_op_zero {w : CmdWord} (h : w.getLsbD 68 = false) :
    decodeCmd w = .vliEnc (cmdAvail w) (cmdOperand w) := if_pos ((cmdOp_eq_zero_iff w).2 h)

theorem decodeCmd_of_op_one {w : CmdWord} (h : w.getLsbD 68 = true) :
    decodeCmd w = .vliDec (cmdAvail w) (cmdOperand w) :=
  if_neg fun h0 => by rw [(cmdOp_eq_zero_iff w).1 h0] at h; contradiction

@[simp] theorem cmdOp_cmdWord (op : BitVec 1) (a : BitVec 4) (x : Word) : cmdOp (cmdWord op a x) = op := by
  apply BitVec.eq_of_getLsbD_eq
  intro i hi
  show (BitVec.extractLsb' 68 1 (n := 1 + 4 + 64) (op ++ a ++ x)).getLsbD i = _
  simp only [BitVec.getLsbD_extractLsb', BitVec.getLsbD_append]
  simp [hi, show ¬ 68 + i < 64 by omega, show ¬ 68 + i - 64 < 4 by omega, show 68 + i - 64 - 4 = i by omega]

@[simp] theorem cmdAvail_cmdWord (op : BitVec 1) (a : BitVec 4) (x : Word) : cmdAvail (cmdWord op a x) = a := by
  apply BitVec.eq_of_getLsbD_eq
  intro i hi
  show (BitVec.extractLsb' 64 4 (n := 1 + 4 + 64) (op ++ a ++ x)).getLsbD i = _
  simp only [BitVec.getLsbD_extractLsb', BitVec.getLsbD_append]
  simp [hi]

@[simp] theorem cmdOperand_cmdWord (op : BitVec 1) (a : BitVec 4) (x : Word) : cmdOperand (cmdWord op a x) = x := by
  apply BitVec.eq_of_getLsbD_eq
  intro i hi
  show (BitVec.extractLsb' 0 64 (n := 1 + 4 + 64) (op ++ a ++ x)).getLsbD i = _
  simp only [BitVec.getLsbD_extractLsb', BitVec.getLsbD_append]
  simp [hi]

/-- Every command word is its fields. -/
theorem cmdWord_fields (w : CmdWord) : cmdWord (cmdOp w) (cmdAvail w) (cmdOperand w) = w := by
  apply BitVec.eq_of_getLsbD_eq
  intro i hi
  show BitVec.getLsbD (w := 1 + 4 + 64) (cmdOp w ++ cmdAvail w ++ cmdOperand w) i = _
  simp only [BitVec.getLsbD_append, cmdOp, cmdAvail, cmdOperand, BitVec.getLsbD_extractLsb']
  by_cases h1 : i < 64
  · simp [h1]
  · by_cases h2 : i - 64 < 4
    · simp [h1, h2, show 64 + (i - 64) = i by omega]
    · obtain rfl : i = 68 := by omega
      simp

end Sys2Proof
end

