-- ==== Sys2Proof/Laws/Lanes.lean ====
section
/-! SUPPORT. Lanes bit by bit: reading, writing, packing and joining them, and words equal lane by lane. -/

namespace Sys2Proof.Machine

theorem getLsbD_memRead (x : Word) (k : LaneIx) (i : Nat) :
    (memRead x k).getLsbD i = (decide (i < 8) && x.getLsbD (56 - 8 * k.val + i)) := by
  simp [memRead, BitVec.getLsbD_extractLsb']

theorem getLsbD_byteOnes (n : Nat) : (255#64).getLsbD n = decide (n < 8) := by
  by_cases h : n < 8
  · interval_cases n <;> simp
  · have : (255#64).toNat < 2 ^ n :=
      lt_of_lt_of_le (by decide : (255#64).toNat < 2 ^ 8) (Nat.pow_le_pow_right (by omega) (by omega))
    simpa [h, BitVec.getLsbD] using Nat.testBit_lt_two_pow this

theorem getLsbD_memWrite (x : Word) (k : LaneIx) (b : Byte) (i : Nat) :
    (memWrite x k b).getLsbD i =
      if 56 - 8 * k.val ≤ i ∧ i < 64 - 8 * k.val then b.getLsbD (i - (56 - 8 * k.val)) else x.getLsbD i := by
  have hk := k.isLt
  simp only [memWrite, BitVec.getLsbD_or, BitVec.getLsbD_and, BitVec.getLsbD_not, BitVec.getLsbD_shiftLeft,
    BitVec.getLsbD_setWidth, getLsbD_byteOnes]
  by_cases h : i < 64
  · split <;> rename_i h1
    · simp [h, show ¬ i < 56 - 8 * k.val by omega, show i - (56 - 8 * k.val) < 64 by omega,
        show i - (56 - 8 * k.val) < 8 by omega]
    · by_cases h2 : i < 56 - 8 * k.val
      · simp [h, h2]
      · simp [h, h2, show ¬ i - (56 - 8 * k.val) < 8 by omega,
          BitVec.getLsbD_of_ge b (i - (56 - 8 * k.val)) (by omega)]
  · rw [if_neg (by omega), BitVec.getLsbD_of_ge x i (by omega)]
    simp [h]

theorem getLsbD_packLanes (f : Nat → Byte) (i : Nat) (hi : i < 64) :
    (packLanes f).getLsbD i = (f (7 - i / 8)).getLsbD (i % 8) := by
  show BitVec.getLsbD (w := 8 + 8 + 8 + 8 + 8 + 8 + 8 + 8)
    (f 0 ++ f 1 ++ f 2 ++ f 3 ++ f 4 ++ f 5 ++ f 6 ++ f 7) i = _
  simp only [BitVec.getLsbD_append]
  have h : i / 8 < 8 := by omega
  obtain ⟨q, r, hr, rfl⟩ : ∃ q r, r < 8 ∧ i = 8 * q + r := ⟨i / 8, i % 8, by omega, by omega⟩
  rw [show (8 * q + r) / 8 = q by omega] at h ⊢
  rw [show (8 * q + r) % 8 = r by omega]
  interval_cases q <;> repeat (first | rw [if_neg (by omega)] | rw [if_pos (by omega)])
  all_goals (congr 1; omega)

/-- Words with equal lanes are equal. -/
theorem word_eq_of_lanes {x y : Word} (h : ∀ k, memRead x k = memRead y k) : x = y := by
  apply BitVec.eq_of_getLsbD_eq
  intro i hi
  have := congrArg (fun b : Byte => b.getLsbD (i % 8)) (h ⟨7 - i / 8, by omega⟩)
  simp only [getLsbD_memRead, show i % 8 < 8 by omega, decide_true, Bool.true_and,
    show 56 - 8 * (7 - i / 8) + i % 8 = i by omega] at this
  exact this

theorem memRead_memWrite_same (x : Word) (k : LaneIx) (b : Byte) : memRead (memWrite x k b) k = b := by
  apply BitVec.eq_of_getLsbD_eq
  intro i hi
  have hk := k.isLt
  rw [getLsbD_memRead, getLsbD_memWrite, if_pos (by omega), show 56 - 8 * k.val + i - (56 - 8 * k.val) = i by omega]
  simp [hi]

theorem memRead_memWrite_other (x : Word) {j k : LaneIx} (b : Byte) (h : j ≠ k) :
    memRead (memWrite x k b) j = memRead x j := by
  apply BitVec.eq_of_getLsbD_eq
  intro i hi
  have hk := k.isLt
  have hj := j.isLt
  have hne : j.val ≠ k.val := fun e => h (Fin.ext e)
  rw [getLsbD_memRead, getLsbD_memWrite, if_neg (by omega), getLsbD_memRead]

@[simp] theorem memRead_packLanes (f : Nat → Byte) (k : LaneIx) : memRead (packLanes f) k = f k := by
  apply BitVec.eq_of_getLsbD_eq
  intro i hi
  have hk := k.isLt
  rw [getLsbD_memRead, getLsbD_packLanes _ _ (by omega), show 7 - (56 - 8 * k.val + i) / 8 = k.val by omega,
    show (56 - 8 * k.val + i) % 8 = i by omega]
  simp [hi]

@[simp] theorem memRead_zero (k : LaneIx) : memRead 0#64 k = 0#8 := by
  apply BitVec.eq_of_getLsbD_eq
  intro i hi
  simp [getLsbD_memRead]

/-- Every lane of the writer's output (R105). -/
theorem memRead_writeLanes (w : Width) (W : Word) (k : LaneIx) :
    memRead (writeLanes w W) k = if k.val < w.bytes then wordByte w W k else 0#8 := by
  fin_cases k <;> simp [writeLanes, allLanes, memRead_memWrite_same, memRead_memWrite_other]

theorem mem_formLanes (w : Width) (k : LaneIx) : k ∈ formLanes w ↔ k.val < w.bytes := by
  revert k; cases w <;> decide

theorem length_formLanes (w : Width) : (formLanes w).length = w.bytes := by cases w <;> rfl

theorem allLanes_take (w : Width) : allLanes.take w.bytes = formLanes w := by cases w <;> rfl

/-- The join depends on the form's lanes alone (R48). -/
theorem joinLanes_congr {w : Width} {x y : Word} (h : ∀ k : LaneIx, k.val < w.bytes → memRead x k = memRead y k) :
    joinLanes w x = joinLanes w y :=
  List.foldl_ext _ _ _ fun _ k hk => by rw [h k ((mem_formLanes w k).1 hk)]

theorem getLsbD_joinNext (x : Word) (b : Byte) (i : Nat) (hi : i < 64) :
    ((x <<< 8) ||| b.setWidth 64).getLsbD i = if i < 8 then b.getLsbD i else x.getLsbD (i - 8) := by
  rw [BitVec.getLsbD_or, BitVec.getLsbD_shiftLeft, BitVec.getLsbD_setWidth]
  split
  · simp [*]
  · simp [*, BitVec.getLsbD_of_ge b i (by omega)]

/-- The join of a form's lanes is the window's top `8w` bits (R45). -/
theorem joinLanes_eq_shift (w : Width) (win : Word) : joinLanes w win = win >>> (64 - 8 * w.bytes) := by
  apply BitVec.eq_of_getLsbD_eq
  intro i hi
  have h : i / 8 < 8 := by omega
  obtain ⟨q, r, hr, rfl⟩ : ∃ q r, r < 8 ∧ i = 8 * q + r := ⟨i / 8, i % 8, by omega, by omega⟩
  rw [show (8 * q + r) / 8 = q by omega] at h
  rw [BitVec.getLsbD_ushiftRight]
  cases w <;> simp only [joinLanes, formLanes, List.foldl, Width.bytes] <;> interval_cases q <;>
    repeat (first
      | rw [getLsbD_joinNext _ _ _ (by omega)]
      | rw [if_neg (by omega)]
      | rw [if_pos (by omega)])
  all_goals first
    | (rw [BitVec.getLsbD_zero, BitVec.getLsbD_of_ge win _ (by omega)])
    | (rw [getLsbD_memRead, decide_eq_true (by omega), Bool.true_and]; congr 1 <;> (simp; try omega))

end Sys2Proof.Machine
end

