-- ==== Sys2Proof/Laws/PerInstr.lean ====
section
/-! SUPPORT. Family EncodeWf: the encoder's output for an instruction is the code of exactly one instruction (R61, R69,
R74). One lemma per constructor. -/

namespace Sys2Proof

/-- The tag of a first byte made of a tag and six payload bits (R69). -/
theorem tagOf_append (t : BitVec 2) (p : BitVec 6) : tagOf (t ++ p) = t := by
  apply BitVec.eq_of_getLsbD_eq
  intro i hi
  show (BitVec.extractLsb' 6 2 (n := 2 + 6) (t ++ p)).getLsbD i = _
  simp only [BitVec.getLsbD_extractLsb', BitVec.getLsbD_append]
  simp [hi]

/-- The width of a first byte made of a width's tag and six payload bits (R70-R73). -/
theorem widthOf_append (w : Width) (p : BitVec 6) : widthOf (w.tag ++ p) = w := by
  rw [widthOf, tagOf_append, Width.ofTag_tag]

end Sys2Proof

namespace Sys2Proof.Laws.EncodeWf

/-- The code of `i` is well-formed. -/
def Statement (i : Instr) : Prop := (encode i).wf = true

/-- A wire code is well-formed when it has as many bytes as the tag of its first byte says. -/
theorem wire_wf (w : Width) (p : BitVec 6) (rest : List Byte) (h : rest.length + 1 = w.bytes) :
    (Code.wire ((w.tag ++ p) :: rest)).wf = true := by
  have := bytes_widthOf (w.tag ++ p)
  rw [widthOf_append] at this
  simp only [Code.wf, decide_eq_true_eq, h, this]

theorem vliEnc (ign : BitVec 4) (value : Word) : Statement (.vliEnc ign value) := rfl
theorem vliDec (avail : BitVec 4) (win : Word) : Statement (.vliDec avail win) := rfl
theorem vli1 (v : BitVec 6) : Statement (.vli1 v) := wire_wf .w1 _ _ rfl
theorem vli2 (v : BitVec 14) : Statement (.vli2 v) := wire_wf .w2 _ _ rfl
theorem vli4 (v : BitVec 30) : Statement (.vli4 v) := wire_wf .w4 _ _ rfl
theorem vli8 (v : BitVec 62) : Statement (.vli8 v) := wire_wf .w8 _ _ rfl

end Sys2Proof.Laws.EncodeWf
end

