-- ==== Sys2Proof/Laws/State.lean ====
section
/-! SUPPORT. One lemma per field of State per update, and what each instruction and each step comes to. -/

namespace Sys2Proof.Machine

@[simp] theorem State.reset_encRes : State.reset.encRes = none := rfl
@[simp] theorem State.reset_decRes : State.reset.decRes = none := rfl
@[simp] theorem State.reset_port : State.reset.port = [] := rfl

@[simp] theorem State.writeEnc_encRes (s : State) (r : ResWord) : (s.writeEnc r).encRes = some r := rfl
@[simp] theorem State.writeEnc_decRes (s : State) (r : ResWord) : (s.writeEnc r).decRes = s.decRes := rfl
@[simp] theorem State.writeEnc_port (s : State) (r : ResWord) : (s.writeEnc r).port = s.port := rfl

@[simp] theorem State.writeDec_encRes (s : State) (r : ResWord) : (s.writeDec r).encRes = s.encRes := rfl
@[simp] theorem State.writeDec_decRes (s : State) (r : ResWord) : (s.writeDec r).decRes = some r := rfl
@[simp] theorem State.writeDec_port (s : State) (r : ResWord) : (s.writeDec r).port = s.port := rfl

@[simp] theorem State.withPort_encRes (s : State) (p : List Input) : (s.withPort p).encRes = s.encRes := rfl
@[simp] theorem State.withPort_decRes (s : State) (p : List Input) : (s.withPort p).decRes = s.decRes := rfl
@[simp] theorem State.withPort_port (s : State) (p : List Input) : (s.withPort p).port = p := rfl

@[simp] theorem State.assertReset_encRes (s : State) : s.assertReset.encRes = none := rfl
@[simp] theorem State.assertReset_decRes (s : State) : s.assertReset.decRes = none := rfl
@[simp] theorem State.assertReset_port (s : State) : s.assertReset.port = s.port := rfl

@[simp] theorem State.withFetchWord_encRes (s : State) (n w : Nat) : (s.withFetchWord n w).encRes = s.encRes := rfl
@[simp] theorem State.withFetchWord_decRes (s : State) (n w : Nat) : (s.withFetchWord n w).decRes = s.decRes := rfl
@[simp] theorem State.withFetchWord_port (s : State) (n w : Nat) :
    (s.withFetchWord n w).port = .present (tableCode n w) :: s.port := rfl

@[simp] theorem exec_vliEnc (ign : BitVec 4) (value : Word) (s : State) :
    exec (.vliEnc ign value) s = .next (s.writeEnc (encodeResult value)) := rfl
@[simp] theorem exec_vliDec (avail : BitVec 4) (win : Word) (s : State) :
    exec (.vliDec avail win) s = .next (s.writeDec (decodeResult win avail)) := rfl
@[simp] theorem exec_vli1 (v : BitVec 6) (s : State) :
    exec (.vli1 v) s = .next (decodeForm (wireBytes1 v) s) := rfl
@[simp] theorem exec_vli2 (v : BitVec 14) (s : State) :
    exec (.vli2 v) s = .next (decodeForm (wireBytes2 v) s) := rfl
@[simp] theorem exec_vli4 (v : BitVec 30) (s : State) :
    exec (.vli4 v) s = .next (decodeForm (wireBytes4 v) s) := rfl
@[simp] theorem exec_vli8 (v : BitVec 62) (s : State) :
    exec (.vli8 v) s = .next (decodeForm (wireBytes8 v) s) := rfl

/-- All an instruction can do: write one result register, with a result of that register's unit. -/
theorem exec_cases {i : Instr} {s t : State} (h : exec i s = .next t) :
    (∃ value, t = s.writeEnc (encodeResult value)) ∨ ∃ win avail, t = s.writeDec (decodeResult win avail) := by
  cases i with
  | vliEnc _ value => exact .inl ⟨value, (Host.Outcome.next.inj h).symm⟩
  | vliDec avail win => exact .inr ⟨win, avail, (Host.Outcome.next.inj h).symm⟩
  | vli1 v => exact .inr ⟨_, _, (Host.Outcome.next.inj h).symm⟩
  | vli2 v => exact .inr ⟨_, _, (Host.Outcome.next.inj h).symm⟩
  | vli4 v => exact .inr ⟨_, _, (Host.Outcome.next.inj h).symm⟩
  | vli8 v => exact .inr ⟨_, _, (Host.Outcome.next.inj h).symm⟩

theorem step_empty {s : State} (h : s.port = []) : step s = .next s := by
  simp only [step, h]
theorem step_idle {s : State} {rest : List Input} (h : s.port = .idle :: rest) :
    step s = .next (s.withPort rest) := by
  simp only [step, h]
theorem step_reset {s : State} {rest : List Input} (h : s.port = .reset :: rest) :
    step s = .next (s.withPort rest).assertReset := by
  simp only [step, h]
theorem step_present {s : State} {c : Code} {rest : List Input} (h : s.port = .present c :: rest) :
    step s = exec (fetch c) (s.withPort rest) := by
  simp only [step, h]

/-- All a step can do: nothing presented, reset, or the instruction presented. -/
theorem step_cases {s t : State} (h : step s = .next t) :
    (s.port = [] ∧ t = s) ∨ (∃ rest, s.port = .idle :: rest ∧ t = s.withPort rest) ∨
    (∃ rest, s.port = .reset :: rest ∧ t = (s.withPort rest).assertReset) ∨
    ∃ c rest, s.port = .present c :: rest ∧ exec (fetch c) (s.withPort rest) = .next t := by
  match hp : s.port with
  | [] => rw [step_empty hp] at h; exact .inl ⟨rfl, (Host.Outcome.next.inj h).symm⟩
  | .idle :: rest => rw [step_idle hp] at h; exact .inr (.inl ⟨rest, rfl, (Host.Outcome.next.inj h).symm⟩)
  | .reset :: rest =>
    rw [step_reset hp] at h; exact .inr (.inr (.inl ⟨rest, rfl, (Host.Outcome.next.inj h).symm⟩))
  | .present c :: rest => rw [step_present hp] at h; exact .inr (.inr (.inr ⟨c, rest, rfl, h⟩))

end Sys2Proof.Machine
end

