-- ==== Sys2Proof/Laws/Port.lean ====
section
/-! SUPPORT. Completing commands in order, and one step's passing at the port. -/

namespace Sys2Proof.Machine

theorem atomicStep_withPort (s : State) (c : CmdWord) (p : List Input) :
    atomicStep (s.withPort p) c = (atomicStep s c).withPort p := by
  unfold atomicStep; split <;> rfl

@[simp] theorem atomicStep_port (s : State) (c : CmdWord) : (atomicStep s c).port = s.port := by
  unfold atomicStep; split <;> rfl

@[simp] theorem completeAll_nil (s : State) : completeAll s [] = s := rfl

theorem completeAll_cons (s : State) (e : Nat × CmdWord) (q : List (Nat × CmdWord)) :
    completeAll s (e :: q) = completeAll (atomicStep s e.2) q := rfl

theorem completeAll_append (s : State) (q q' : List (Nat × CmdWord)) :
    completeAll s (q ++ q') = completeAll (completeAll s q) q' := by
  simp [completeAll]

/-- Only the words in flight matter, not the steps they have to go. -/
theorem completeAll_map (s : State) (q : List (Nat × CmdWord)) (f : Nat → Nat) :
    completeAll s (q.map (fun e => (f e.1, e.2))) = completeAll s q := by
  simp [completeAll, List.foldl_map]

@[simp] theorem completeAll_port (s : State) (q : List (Nat × CmdWord)) : (completeAll s q).port = s.port := by
  induction q generalizing s with
  | nil => rfl
  | cons e q ih => rw [completeAll_cons, ih, atomicStep_port]

theorem completeAll_withPort (s : State) (q : List (Nat × CmdWord)) (p : List Input) :
    completeAll (s.withPort p) q = (completeAll s q).withPort p := by
  induction q generalizing s with
  | nil => rfl
  | cons e q ih => rw [completeAll_cons, atomicStep_withPort, ih, completeAll_cons]

/-- A step's passing completes now what is due and leaves the rest to complete later, in the same order. -/
theorem advance_drained (s : State) (q : List (Nat × CmdWord)) : (advance s q).drained = completeAll s q := by
  simp only [advance, Pipelined.drained]
  rw [completeAll_map _ _ (fun n => n - 1), ← completeAll_append, List.takeWhile_append_dropWhile]

@[simp] theorem advance_nil (s : State) : advance s [] = { block := s, inflight := [] } := rfl

theorem ticks_succ (latency k : Nat) (p : Pipelined) : ticks latency (k + 1) p = ticks latency k (tick latency p) := rfl

theorem ticks_succ_last (latency k : Nat) (p : Pipelined) :
    ticks latency (k + 1) p = tick latency (ticks latency k p) := by
  induction k generalizing p with
  | zero => rfl
  | succ k ih => rw [ticks_succ, ih, ticks_succ]

end Sys2Proof.Machine
end

