-- ==== Sys2Proof/Laws/Run.lean ====
section
/-! SUPPORT. Runs of the block, one step at a time, and a host's runs, one action at a time. -/

namespace Sys2Proof.Machine

theorem run_zero (s : State) : Host.Core.run core 0 s = .next s := rfl

/-- A run takes its first step and goes on from there. -/
theorem run_succ {s t : State} (n : Nat) (h : step s = .next t) :
    Host.Core.run core (n + 1) s = Host.Core.run core n t := by
  have h' : core.step s = .next t := h
  simp only [Host.Core.run, h']

@[simp] theorem isRead_issue (x : Input) : (HostAction.issue x).isRead = false := rfl
@[simp] theorem isRead_readEnc : HostAction.readEnc.isRead = true := rfl
@[simp] theorem isRead_readDec : HostAction.readDec.isRead = true := rfl

@[simp] theorem hostRun_nil (s : State) : hostRun [] s = .next (s, []) := rfl

/-- A host's input is one step of the block; the run goes on from there. -/
theorem hostRun_issue {x : Input} {s u : State} (rest : List HostAction) (h : step (s.withPort [x]) = .next u) :
    hostRun (.issue x :: rest) s = hostRun rest (u.withPort s.port) := by simp only [hostRun, h]

theorem hostRun_readEnc {rest : List HostAction} {s t : State} {reads : List (Option ResWord)}
    (h : hostRun rest s = .next (t, reads)) : hostRun (.readEnc :: rest) s = .next (t, s.encRes :: reads) := by
  simp only [hostRun, h]

theorem hostRun_readDec {rest : List HostAction} {s t : State} {reads : List (Option ResWord)}
    (h : hostRun rest s = .next (t, reads)) : hostRun (.readDec :: rest) s = .next (t, s.decRes :: reads) := by
  simp only [hostRun, h]

/-- A host's run in two parts: the second starts where the first ends, and its reads follow the first's. -/
theorem hostRun_append {pre post : List HostAction} {s u t : State} {before after : List (Option ResWord)}
    (h1 : hostRun pre s = .next (u, before)) (h2 : hostRun post u = .next (t, after)) :
    hostRun (pre ++ post) s = .next (t, before ++ after) := by
  induction pre generalizing s before with
  | nil => cases h1; exact h2
  | cons a pre ih =>
    cases a with
    | issue x =>
      cases hs : step (s.withPort [x]) with
      | next v =>
        rw [hostRun_issue _ hs] at h1
        rw [List.cons_append, hostRun_issue _ hs]
        exact ih h1
      | fault r => simp [hostRun, hs] at h1
      | refused r => simp [hostRun, hs] at h1
    | readEnc =>
      cases hr : hostRun pre s with
      | next p =>
        obtain ⟨v, reads⟩ := p
        rw [hostRun_readEnc hr] at h1
        cases h1
        exact hostRun_readEnc (ih hr)
      | fault r => simp [hostRun, hr] at h1
      | refused r => simp [hostRun, hr] at h1
    | readDec =>
      cases hr : hostRun pre s with
      | next p =>
        obtain ⟨v, reads⟩ := p
        rw [hostRun_readDec hr] at h1
        cases h1
        exact hostRun_readDec (ih hr)
      | fault r => simp [hostRun, hr] at h1
      | refused r => simp [hostRun, hr] at h1

end Sys2Proof.Machine
end

