-- ==== Sys2Proof/Laws/Units.lean ====
section
/-! SUPPORT. What the encoder's and the decoder's shared operations answer, once for each. -/

namespace Sys2Proof.Machine

theorem Width.maxValue_eq (w : Width) : w.maxValue = 2 ^ (8 * w.bytes - 2) - 1 := by cases w <;> decide

/-- The selector answers `w` exactly on the values whose minimal width is `w` (R102). -/
theorem selectWidth_eq_some_iff (value : Word) (w : Width) :
    selectWidth value = some w ↔ minimalFrom w ≤ value.toNat ∧ value.toNat ≤ w.maxValue := by
  unfold selectWidth
  cases w <;> simp only [minimalFrom, Width.maxValue] <;>
    unfold Config.max1 Config.max2 Config.max4 Config.maxValue <;>
    split_ifs <;> simp only [Option.some.injEq, reduceCtorEq, false_iff, true_iff, not_and] <;> omega

/-- The selector answers no width exactly above the largest value (R101). -/
theorem selectWidth_eq_none_iff (value : Word) : selectWidth value = none ↔ Config.maxValue < value.toNat := by
  unfold selectWidth
  split_ifs <;> simp_all

/-- All VLI.ENC can leave: ValueTooLarge, or the minimal form of the value (R106). -/
theorem encodeResult_cases (value : Word) :
    (Config.maxValue < value.toNat ∧ encodeResult value = raise .valueTooLarge) ∨
    ∃ w, minimalFrom w ≤ value.toNat ∧ value.toNat ≤ w.maxValue ∧
      encodeResult value = success w (writeLanes w (packTag w value)) := by
  unfold encodeResult
  match h : selectWidth value with
  | none => exact .inl ⟨(selectWidth_eq_none_iff value).1 h, rfl⟩
  | some w => exact .inr ⟨w, ((selectWidth_eq_some_iff value w).1 h).1, ((selectWidth_eq_some_iff value w).1 h).2, rfl⟩

theorem encodeResult_of_gt {value : Word} (h : Config.maxValue < value.toNat) :
    encodeResult value = raise .valueTooLarge := by
  unfold encodeResult
  rw [(selectWidth_eq_none_iff value).2 h]

theorem encodeResult_of_range {value : Word} {w : Width} (h1 : minimalFrom w ≤ value.toNat)
    (h2 : value.toNat ≤ w.maxValue) : encodeResult value = success w (writeLanes w (packTag w value)) := by
  unfold encodeResult
  rw [(selectWidth_eq_some_iff value w).2 ⟨h1, h2⟩]

/-- The width the window names has as many bytes as `1 << WIN[63:62]` (R132, R162). -/
theorem bytes_windowWidth (win : Word) : (windowWidth win).bytes = 2 ^ (win.extractLsb' 62 2).toNat := by
  have h : (memRead win 0).extractLsb' 6 2 = win.extractLsb' 62 2 := by
    apply BitVec.eq_of_getLsbD_eq
    intro i hi
    simp [memRead, hi, show 6 + i < 8 by omega, show 56 + (6 + i) = 62 + i by omega]
  rw [windowWidth, bytes_widthOf, h]

/-- The source is short: it is empty, or has fewer bytes than the width its first byte names (R131, R133). -/
def Short (win : Word) (avail : BitVec 4) : Prop := avail = 0#4 ∨ avail.toNat < (windowWidth win).bytes

theorem decodeResult_of_short {win : Word} {avail : BitVec 4} (h : Short win avail) :
    decodeResult win avail = raise .insufficientData := by
  unfold decodeResult
  rcases h with h | h
  · rw [if_pos h]
  · rw [if_pos h, ite_self]

theorem decodeResult_of_enough {win : Word} {avail : BitVec 4} (h : (windowWidth win).bytes ≤ avail.toNat) :
    decodeResult win avail =
      success (windowWidth win) (clearTag (windowWidth win) (joinLanes (windowWidth win) win)) := by
  have h0 : avail ≠ 0#4 := by
    rintro rfl
    have := Width.bytes_pos (windowWidth win)
    simp at h; omega
  unfold decodeResult
  rw [if_neg h0, if_neg (by omega)]

/-- All VLI.DEC can leave (R135). -/
theorem decodeResult_cases (win : Word) (avail : BitVec 4) :
    (Short win avail ∧ decodeResult win avail = raise .insufficientData) ∨
    ((windowWidth win).bytes ≤ avail.toNat ∧ decodeResult win avail =
      success (windowWidth win) (clearTag (windowWidth win) (joinLanes (windowWidth win) win))) := by
  by_cases h : (windowWidth win).bytes ≤ avail.toNat
  · exact .inr ⟨h, decodeResult_of_enough h⟩
  · have hs : Short win avail := .inr (by omega)
    exact .inl ⟨hs, decodeResult_of_short hs⟩

@[simp] theorem success_status (w : Width) (x : Word) : (success w x).status = 0b00#2 := rfl
@[simp] theorem success_len (w : Width) (x : Word) : (success w x).len = lenField w := rfl
@[simp] theorem success_data (w : Width) (x : Word) : (success w x).data = x := rfl
@[simp] theorem raise_status (e : ErrorKind) : (raise e).status = e.code := rfl
@[simp] theorem raise_len (e : ErrorKind) : (raise e).len = 0#4 := rfl
@[simp] theorem raise_data (e : ErrorKind) : (raise e).data = 0#64 := rfl

@[simp] theorem toNat_lenField (w : Width) : (lenField w).toNat = w.bytes := by cases w <;> decide

theorem lenField_injective {w w' : Width} (h : lenField w = lenField w') : w = w' := by
  cases w <;> cases w' <;> first | rfl | exact absurd h (by decide)

/-- Clearing the tag bits is reduction modulo `2^(8w-2)` (R134). -/
theorem toNat_clearTag (w : Width) (W : Word) : (clearTag w W).toNat = W.toNat % 2 ^ (8 * w.bytes - 2) := by
  have h : ∀ n, n ≤ 64 → (W &&& BitVec.ofNat 64 (2 ^ n - 1)).toNat = W.toNat % 2 ^ n := by
    intro n hn
    have : 2 ^ n - 1 < 2 ^ 64 :=
      lt_of_lt_of_le (Nat.sub_lt (Nat.two_pow_pos n) Nat.one_pos) (Nat.pow_le_pow_right (by omega) hn)
    rw [BitVec.toNat_and, BitVec.toNat_ofNat, Nat.mod_eq_of_lt this, Nat.and_two_pow_sub_one_eq_mod]
  have := Width.bytes_le_eight w
  exact h _ (by unfold Width.payloadBits; omega)

/-- The join of the form's lanes as a number: the window's top `8w` bits (R45, R135). -/
theorem toNat_joinLanes (w : Width) (win : Word) : (joinLanes w win).toNat = win.toNat >>> (64 - 8 * w.bytes) := by
  rw [joinLanes_eq_shift, BitVec.toNat_ushiftRight]

end Sys2Proof.Machine
end

