-- ==== Sys2Proof/Tests/Slice0.lean ====
section
/-! SUPPORT. The model's own tests. Expected values are the spec's: the encodings of 30_encoding.md, the vectors and tables of
95_test_vectors.md (section named at each). Then a witness for the hypotheses of each statement. -/

namespace Sys2Proof.Tests

open Sys2Proof Sys2Proof.Machine

/-- The next state, if that is the outcome. -/
def nextOf (o : Host.Outcome State Fault Refusal) : Option State :=
  match o with
  | .next s => some s
  | .fault _ => none
  | .refused _ => none

/-- ENC_RES at its port after a next state: VALID and the result word. -/
def encPort (o : Host.Outcome State Fault Refusal) : Option (BitVec 1 × ResBits) :=
  (nextOf o).map fun s => (valid s.encRes, (portView s.encRes).bits)

/-- DEC_RES at its port after a next state: VALID and the result word. -/
def decPort (o : Host.Outcome State Fault Refusal) : Option (BitVec 1 × ResBits) :=
  (nextOf o).map fun s => (valid s.decRes, (portView s.decRes).bits)

/-- After reset, with one code presented. -/
def presenting (c : Code) : State := State.reset.withPort [.present c]

/-! ### WellFormed: an ill-formed term for each check -/

theorem test_wf_enc_refuses_two_pow_64 : (AsmStmt.enc 18446744073709551616).wf = false := by decide
theorem test_wf_enc_accepts_largest : (AsmStmt.enc 18446744073709551615).wf = true := by decide
theorem test_wf_dec_refuses_avail_16 : (AsmStmt.dec 16 0).wf = false := by decide
theorem test_wf_dec_refuses_window_two_pow_64 : (AsmStmt.dec 15 18446744073709551616).wf = false := by decide
theorem test_wf_dec_accepts_avail_15 : (AsmStmt.dec 15 0).wf = true := by decide
theorem test_wf_decb_refuses_nine_bytes : (AsmStmt.decb [0, 0, 0, 0, 0, 0, 0, 0, 0]).wf = false := by decide
theorem test_wf_decb_refuses_byte_256 : (AsmStmt.decb [256]).wf = false := by decide
theorem test_wf_decb_accepts_none : (AsmStmt.decb []).wf = true := by decide
theorem test_wf_code_refuses_no_byte : (Code.wire []).wf = false := by decide
theorem test_wf_code_refuses_short_form : (Code.wire [0x41#8]).wf = false := by decide
theorem test_wf_code_refuses_trailing_byte : (Code.wire [0x03#8, 0x00#8]).wf = false := by decide
theorem test_assembler_never_sets_ignored_field : (Instr.vliEnc 0xF#4 257#64).assemblable = false := by decide
theorem test_assembler_has_no_bare_wire_form : (Instr.vli2 257#14).assemblable = false := by decide

/-! ### Decode: each constructor's word, written bit by bit from R60 and R70-R73 -/

theorem test_decode_vliEnc :
    decode (.cmd 0b0_0000_0000000000000000000000000000000000000000000000000000000100000001#69) =
      .ok (.vliEnc 0b0000#4 257#64, []) := by decide
/-- Section 2.1, the raw word: the ignored field is kept as an operand (R64). -/
theorem test_decode_vliEnc_ignored_field :
    decode (.cmd 0x0F0000000000000101#69) = .ok (.vliEnc 0xF#4 257#64, []) := by decide
theorem test_decode_vliDec :
    decode (.cmd 0b1_0010_0100000100000001000000000000000000000000000000000000000000000000#69) =
      .ok (.vliDec 0b0010#4 0x4101000000000000#64, []) := by decide
theorem test_decode_vli1 : decode (.wire [0b00_100101#8]) = .ok (.vli1 37#6, []) := by decide
theorem test_decode_vli2 : decode (.wire [0b01_111011#8, 0b10111101#8]) = .ok (.vli2 15293#14, []) := by decide
theorem test_decode_vli4 :
    decode (.wire [0b10_011101#8, 0b01111111#8, 0b00111110#8, 0b01111101#8]) = .ok (.vli4 494878333#30, []) := by decide
theorem test_decode_vli8 :
    decode (.wire [0b11_000010#8, 0b00011001#8, 0b01111100#8, 0b01011110#8, 0b11111111#8, 0b00010100#8, 0b11101000#8,
      0b10001100#8]) = .ok (.vli8 151288809941952652#62, []) := by decide
/-- Program P2, iteration 1: the byte stream after a 1-byte form is left. -/
theorem test_decode_leaves_rest :
    decode (.wire [0x25#8, 0x7B#8, 0xBD#8]) = .ok (.vli1 37#6, [0x7B#8, 0xBD#8]) := by decide
theorem test_decode_rejects_short_vli4 :
    decode (.wire [0x80#8, 0x00#8]) = .error (.shortSource .w4) := by decide
theorem test_decode_rejects_empty : decode (.wire []) = .error .emptySource := by decide

/-! ### The opcode table's words: each row's match, and a word with operand bits -/

theorem test_table_vliEnc : decodeTableWord 72 0x000000000000000101 = some (.vliEnc 0#4 257#64) := by decide
theorem test_table_vliDec : decodeTableWord 72 0x124101000000000000 = some (.vliDec 2#4 0x4101000000000000#64) := by decide
theorem test_table_vli1 : decodeTableWord 8 0x25 = some (.vli1 37#6) := by decide
theorem test_table_vli2 : decodeTableWord 16 0xBD7B = some (.vli2 15293#14) := by decide
theorem test_table_vli4 : decodeTableWord 32 0x7D3E7F9D = some (.vli4 494878333#30) := by decide
theorem test_table_vli8 : decodeTableWord 64 0xC0 = some (.vli8 0#62) := by decide
theorem test_table_vli2_match_only : decodeTableWord 8 0x40 = some (.vli2 0#14) := by decide
theorem test_table_refuses_70_bits : decodeTableWord 72 0x400000000000000000 = none := by decide
theorem test_fetch_word_runs_vli2 :
    nextOf (step (State.reset.withFetchWord 16 0x0141)) = nextOf (exec (.vli2 257#14) State.reset) := by decide

/-! ### One step each (section 1.1, 1.3, 2.1, 2.2) -/

theorem test_step_vliEnc : encPort (step (presenting (.cmd 0x000000000000000101#69))) =
    some (1#1, 0x024101000000000000#70) := by decide
theorem test_step_vliEnc_too_large : encPort (step (presenting (.cmd 0x004000000000000000#69))) =
    some (1#1, 0x100000000000000000#70) := by decide
theorem test_step_vliDec : decPort (step (presenting (.cmd 0x1FC101010101010101#69))) =
    some (1#1, 0x080101010101010101#70) := by decide
theorem test_step_vliDec_short : decPort (step (presenting (.cmd 0x17C101010101010100#69))) =
    some (1#1, 0x200000000000000000#70) := by decide
theorem test_step_vli1 : decPort (step (presenting (.wire [0x3F#8]))) = some (1#1, 0x01000000000000003F#70) := by decide
theorem test_step_vli2_non_minimal : decPort (step (presenting (.wire [0x40#8, 0x25#8]))) =
    some (1#1, 0x020000000000000025#70) := by decide
theorem test_step_vli4 : decPort (step (presenting (.wire [0xBF#8, 0xFF#8, 0xFF#8, 0xFF#8]))) =
    some (1#1, 0x04000000003FFFFFFF#70) := by decide
theorem test_step_vli8 :
    decPort (step (presenting (.wire [0xFF#8, 0xFF#8, 0xFF#8, 0xFF#8, 0xFF#8, 0xFF#8, 0xFF#8, 0xFF#8]))) =
      some (1#1, 0x083FFFFFFFFFFFFFFF#70) := by decide
/-- Section 2.4, first row: VLI.ENC leaves DEC_RES untouched, VALID 0 and all fields 0. -/
theorem test_step_vliEnc_leaves_decRes : decPort (step (presenting (.cmd 0x00000000000000003F#69))) =
    some (0#1, 0x000000000000000000#70) := by decide

/-! ### The boundaries of the widths (section 1.2) -/

theorem test_boundary_lengths :
    ([63#64, 64#64, 16383#64, 16384#64, 1073741823#64, 1073741824#64].map fun v => (encodeResult v).len) =
      [1#4, 2#4, 2#4, 4#4, 4#4, 8#4] := by decide

/-! ### The assembler (section 1.1, R80-R83), the host's side (P4), the port (R187) -/

theorem test_assemble_enc : assembleLine "VLI.ENC 257 ; the reference vector".toList =
    .ok (some 0x000000000000000101#69) := by decide
theorem test_assemble_dec : assembleLine "VLI.DEC 15, 0xC101010101010101".toList =
    .ok (some 0x1FC101010101010101#69) := by decide
theorem test_assemble_decb : assembleLine "VLI.DECB 0x41, 0x01".toList = .ok (some 0x124101000000000000#69) := by decide
theorem test_assemble_decb_none : assembleLine "VLI.DECB".toList = .ok (some 0x100000000000000000#69) := by decide
theorem test_assemble_refuses_two_pow_64 :
    assembleLine "VLI.ENC 18446744073709551616".toList = .error .outOfRange := by decide
theorem test_assemble_refuses_lower_case : assembleLine "vli.enc 3".toList = .error .unknownMnemonic := by decide
/-- The model's choice (Log 10): a line with no command gives no word. -/
theorem test_assemble_line_without_command :
    assembleLine [] = .ok none ∧ assembleLine "  ; only a comment".toList = .ok none := by decide
/-- The model's choice (Log 10): a refused line refuses the text. -/
theorem test_assemble_text_refused :
    assembleText "VLI.ENC 3\nVLI.DEC 16, 0x0\nvli.enc 3\n".toList = .error .outOfRange := by decide
theorem test_assemble_text : assembleText "VLI.ENC 3\n; a comment\nVLI.DECB 0x03\n".toList =
    .ok [0x000000000000000003#69, 0x110300000000000000#69] := by decide

theorem test_host_appends_bytes : appendResult [0x03#8] (encodeResult 257#64) = [0x03#8, 0x41#8, 0x01#8] := by decide
theorem test_host_appends_nothing_on_error :
    appendResult [0x03#8] (encodeResult 4611686018427387904#64) = [0x03#8] := by decide
/-- A read before any result yields none (R185), a read after VLI.ENC 3 its result (R107). -/
theorem test_host_run_records_reads :
    hostRun [.readEnc, .issue (.present (.cmd 0x000000000000000003#69)), .readDec, .readEnc] State.reset =
      .next ({ State.reset with encRes := some { status := 0b00#2, len := 1#4, data := 0x0300000000000000#64 } },
        [none, none, some { status := 0b00#2, len := 1#4, data := 0x0300000000000000#64 }]) := rfl
/-- Program P3: 40 25 is told apart from 25 by re-encoding. -/
theorem test_host_canonical_check :
    (canonicalCheck (decodeResult 0x4025000000000000#64 2#4), canonicalCheck (decodeResult 0x2500000000000000#64 1#4)) =
      (false, true) := by decide

theorem test_port_latency_one_is_pending :
    (tick 1 { block := presenting (.cmd 0x000000000000000003#69), inflight := [] }).block.encRes = none := by decide
theorem test_port_latency_zero_is_complete :
    (tick 0 { block := presenting (.cmd 0x000000000000000003#69), inflight := [] }).block.encRes =
      some { status := 0b00#2, len := 1#4, data := 0x0300000000000000#64 } := by decide

/-! ### Witnesses: for each statement with hypotheses, a state and operands that meet them, each clause at a boundary -/

theorem witness_ResetEventClearsBothRegisters :
    ({ encRes := some (raise .valueTooLarge), decRes := none, port := [.reset, .idle] } : State).port =
      .reset :: [.idle] := by decide
theorem witness_CommandWordRunsAtomicStep :
    (presenting (.cmd 0x00FFFFFFFFFFFFFFFF#69)).port = .present (.cmd 0x00FFFFFFFFFFFFFFFF#69) :: [] ∧
    (0x0FFFFFFFFFFFFFFFFF#69 : CmdWord).getLsbD 68 = false ∧ (0x100000000000000000#69 : CmdWord).getLsbD 68 = true := by
  decide
theorem witness_StepRunsDecodedInstruction :
    (presenting (.wire [0x03#8, 0x41#8])).port = .present (.wire [0x03#8, 0x41#8]) :: [] ∧
    decode (.wire [0x03#8, 0x41#8]) = .ok (.vli1 3#6, [0x41#8]) := by decide
theorem witness_FetchWordRunsTableInstruction : decodeTableWord 16 0xFF7F = some (.vli2 16383#14) := by decide
theorem witness_IdleStepKeepsRegisters :
    State.reset.port = [] ∧ (State.reset.withPort [.idle]).port = .idle :: [] := by decide
/-- No byte; and one byte fewer than the form needs, for each width that can be short. -/
theorem witness_ShortSourceGivesInsufficientData :
    (presenting (.wire [])).port = .present (.wire []) :: [] ∧
    [0x41#8].length < 2 ^ ((0x41#8 : Byte).extractLsb' 6 2).toNat ∧
    [0x80#8, 1#8, 1#8].length < 2 ^ ((0x80#8 : Byte).extractLsb' 6 2).toNat ∧
    [0xC1#8, 1#8, 1#8, 1#8, 1#8, 1#8, 1#8].length < 2 ^ ((0xC1#8 : Byte).extractLsb' 6 2).toNat := by decide
/-- No byte, a short form, a whole form with a byte after it, and nine bytes. -/
theorem witness_WireDispatchEqualsLoadedVliDec :
    (presenting (.wire [])).port = .present (.wire []) :: [] ∧
    (presenting (.wire [0x41#8])).port = .present (.wire [0x41#8]) :: [] ∧
    (presenting (.wire [0x41#8, 0x01#8, 0xFF#8])).port = .present (.wire [0x41#8, 0x01#8, 0xFF#8]) :: [] ∧
    (presenting (.wire (List.replicate 9 0xFF#8))).port = .present (.wire (List.replicate 9 0xFF#8)) :: [] := by decide
theorem witness_EncoderFrame :
    exec (.vliEnc 0#4 257#64) State.reset = .next (State.reset.writeEnc (encodeResult 257#64)) := rfl
theorem witness_DecoderFrame :
    (∃ t, exec (.vliDec 2#4 0x4101000000000000#64) State.reset = .next t) ∧
    (∃ t, exec (.vli1 63#6) State.reset = .next t) ∧ (∃ t, exec (.vli2 16383#14) State.reset = .next t) ∧
    (∃ t, exec (.vli4 0#30) State.reset = .next t) ∧ ∃ t, exec (.vli8 0#62) State.reset = .next t :=
  ⟨⟨_, rfl⟩, ⟨_, rfl⟩, ⟨_, rfl⟩, ⟨_, rfl⟩, ⟨_, rfl⟩⟩
theorem witness_CommandsAreIdempotent :
    exec (.vliDec 0#4 0#64) State.reset = .next (State.reset.writeDec (decodeResult 0#64 0#4)) := rfl

/-- VLI.ENC 63, then VLI.DECB 0x41, then nothing (section 2.4, the first two rows). -/
def mixed : List Input := [.present (.cmd 0x00000000000000003F#69), .present (.cmd 0x114100000000000000#69), .idle]

theorem witness_UnitsDoNotInterfereOverRuns_encoder :
    (∃ t, Host.Core.run core 3 (State.reset.withPort mixed) = .next t) ∧
    (∃ t, Host.Core.run core 1 (State.reset.withPort [.present (.cmd 0x00000000000000003F#69)]) = .next t) ∧
    (State.reset.withPort [.present (.cmd 0x00000000000000003F#69)]).port = mixed.filter Input.concernsEnc :=
  ⟨⟨_, rfl⟩, ⟨_, rfl⟩, by decide⟩
theorem witness_UnitsDoNotInterfereOverRuns_decoder :
    (∃ t, Host.Core.run core 3 (State.reset.withPort mixed) = .next t) ∧
    (∃ t, Host.Core.run core 1 (State.reset.withPort [.present (.cmd 0x114100000000000000#69)]) = .next t) ∧
    (State.reset.withPort [.present (.cmd 0x114100000000000000#69)]).port = mixed.filter Input.concernsDec :=
  ⟨⟨_, rfl⟩, ⟨_, rfl⟩, by decide⟩
theorem witness_RegisterHoldsLatestResult_encoder :
    (∃ t, Host.Core.run core 3 (State.reset.withPort mixed) = .next t) ∧ cmdOp 0x00000000000000003F#69 = 0#1 ∧
    ∀ x ∈ mixed.tail, x.concernsEnc = false := ⟨⟨_, rfl⟩, by decide, by decide⟩
theorem witness_RegisterHoldsLatestResult_decoder :
    (∃ t, Host.Core.run core 2 (State.reset.withPort mixed.tail) = .next t) ∧ cmdOp 0x114100000000000000#69 = 1#1 ∧
    ∀ x ∈ [Input.idle, .present (.cmd 0x00000000000000003F#69)], x.concernsDec = false :=
  ⟨⟨_, rfl⟩, by decide, by decide⟩
theorem witness_OpcodeBitSelectsCommand :
    (0x0FFFFFFFFFFFFFFFFF#69 : CmdWord).getLsbD 68 = false ∧ (0x1FFFFFFFFFFFFFFFFF#69 : CmdWord).getLsbD 68 = true := by
  decide
theorem witness_EncoderIgnoresAvailField :
    (0x000000000000000101#69 : CmdWord).getLsbD 68 = false ∧ (0x0F0000000000000101#69 : CmdWord).getLsbD 68 = false ∧
    (0x000000000000000101#69 : CmdWord).extractLsb' 0 64 = (0x0F0000000000000101#69 : CmdWord).extractLsb' 0 64 := by
  decide
/-- As many bytes as the form needs, and one fewer. -/
theorem witness_FirstByteDecidesWireLength :
    2 ^ ((0x41#8 : Byte).extractLsb' 6 2).toNat ≤ [0x01#8].length + 1 ∧
    ([] : List Byte).length + 1 < 2 ^ ((0x41#8 : Byte).extractLsb' 6 2).toNat := by decide
theorem witness_DecodeOfEncodeIsIdentity : encode (.vli2 257#14) = .wire [0x41#8, 0x01#8] := by decide
theorem witness_EncodeOfDecodeIsIdentity :
    (Code.cmd 0x0F0000000000000101#69).wf = true ∧
    decode (.cmd 0x0F0000000000000101#69) = .ok (.vliEnc 0xF#4 257#64, []) ∧
    (Code.wire [0x40#8, 0x25#8]).wf = true ∧ decode (.wire [0x40#8, 0x25#8]) = .ok (.vli2 37#14, []) := by decide
/-- A success and an error of each unit. -/
theorem witness_StatusAndLengthOfResults :
    (encodeResult 63#64).status = 0b00#2 ∧ (encodeResult 4611686018427387904#64).status = 0b01#2 ∧
    (decodeResult 0x25FFFFFFFFFFFFFF#64 1#4).status = 0b00#2 ∧ (decodeResult 0#64 0#4).status = 0b10#2 := by decide
theorem witness_DecbExpandsToVliDec :
    [255, 0, 1, 2, 3, 4, 5, 255].length ≤ 8 ∧ ∀ b ∈ [255, 0, 1, 2, 3, 4, 5, 255], b < 256 := by decide
theorem witness_AssemblerEmitsAssemblableCommands :
    assemble (.enc 18446744073709551615) = some 0x00FFFFFFFFFFFFFFFF#69 ∧
    (Instr.vliEnc 0#4 257#64).assemblable = true ∧ (Instr.vliDec 15#4 0#64).assemblable = true := by decide
theorem witness_ValueTooLargeExactlyAboveMax :
    2 ^ 62 - 1 < (4611686018427387904#64 : Word).toNat ∧ 2 ^ 62 - 1 < (18446744073709551615#64 : Word).toNat := by decide
theorem witness_EncodeToVli1 : (0#64 : Word).toNat ≤ 63 ∧ (63#64 : Word).toNat ≤ 63 := by decide
theorem witness_EncodeToVli2 :
    (64 ≤ (64#64 : Word).toNat ∧ (64#64 : Word).toNat ≤ 16383) ∧
    64 ≤ (16383#64 : Word).toNat ∧ (16383#64 : Word).toNat ≤ 16383 := by decide
theorem witness_EncodeToVli4 :
    (16384 ≤ (16384#64 : Word).toNat ∧ (16384#64 : Word).toNat ≤ 1073741823) ∧
    16384 ≤ (1073741823#64 : Word).toNat ∧ (1073741823#64 : Word).toNat ≤ 1073741823 := by decide
/-- Both bounds, and lanes 1 and 7. -/
theorem witness_EncodeToVli8 :
    (1073741824 ≤ (1073741824#64 : Word).toNat ∧ (1073741824#64 : Word).toNat ≤ 4611686018427387903) ∧
    (1073741824 ≤ (4611686018427387903#64 : Word).toNat ∧
      (4611686018427387903#64 : Word).toNat ≤ 4611686018427387903) ∧
    1 ≤ (1 : LaneIx).val ∧ 1 ≤ (7 : LaneIx).val := by decide
/-- A read as the first action and as the last. -/
theorem witness_HostReadsChangeNothing :
    ([.readEnc, .issue .idle, .readDec] : List HostAction) = [] ++ .readEnc :: [.issue .idle, .readDec] ∧
    ([.readEnc, .issue .idle, .readDec] : List HostAction) = [.readEnc, .issue .idle] ++ .readDec :: [] := by decide
theorem witness_EncoderWidthIsMinimal :
    (encodeResult 16383#64).status = 0b00#2 ∧ 16383 ≤ 2 ^ (8 * 2 - 2) - 1 ∧ 16383 ≤ 2 ^ (8 * 8 - 2) - 1 := by decide
theorem witness_BitTestFormSelectsSameWidth : (4611686018427387903#64 : Word).toNat ≤ 2 ^ 62 - 1 := by decide
theorem witness_TagPackerIsExact :
    (63#64 : Word).toNat < 2 ^ (8 * Width.w1.bytes - 2) ∧
    (4611686018427387903#64 : Word).toNat < 2 ^ (8 * Width.w8.bytes - 2) := by decide
/-- The full word of a width; the last lane of a form and the first after it. -/
theorem witness_WriterEmitsBigEndianLanes :
    (0x7FFF#64 : Word).toNat < 2 ^ (8 * Width.w2.bytes) ∧ (1 : LaneIx).val < Width.w2.bytes ∧
    Width.w2.bytes ≤ (2 : LaneIx).val := by decide
/-- An empty source, and each width one byte short. -/
theorem witness_InsufficientDataExactlyWhenShort :
    (0#4 : BitVec 4) = 0#4 ∧ (1#4 : BitVec 4).toNat < 2 ^ ((0x4100000000000000#64 : Word).extractLsb' 62 2).toNat ∧
    (3#4 : BitVec 4).toNat < 2 ^ ((0x8101010000000000#64 : Word).extractLsb' 62 2).toNat ∧
    (7#4 : BitVec 4).toNat < 2 ^ ((0xC101010101010100#64 : Word).extractLsb' 62 2).toNat := by decide
theorem witness_DecodeVli1 :
    (memRead 0x3F00000000000000#64 0).extractLsb' 6 2 = 0b00#2 ∧ 1 ≤ (1#4 : BitVec 4).toNat ∧
    (63#64 : Word) = ((memRead 0x3F00000000000000#64 0).extractLsb' 0 6).setWidth 64 := by decide
theorem witness_DecodeVli2 :
    (memRead 0x7FFF000000000000#64 0).extractLsb' 6 2 = 0b01#2 ∧ 2 ≤ (2#4 : BitVec 4).toNat ∧
    (16383#64 : Word) = ((memRead 0x7FFF000000000000#64 0).extractLsb' 0 6).setWidth 64 <<< 8 |||
      (memRead 0x7FFF000000000000#64 1).setWidth 64 := by decide
theorem witness_DecodeVli4 :
    (memRead 0xBFFFFFFF00000000#64 0).extractLsb' 6 2 = 0b10#2 ∧ 4 ≤ (4#4 : BitVec 4).toNat := by decide
theorem witness_DecodeVli8 :
    (memRead 0xFFFFFFFFFFFFFFFF#64 0).extractLsb' 6 2 = 0b11#2 ∧ 8 ≤ (8#4 : BitVec 4).toNat ∧
    8 ≤ (15#4 : BitVec 4).toNat := by decide
/-- Windows that differ in every lane past the form (section 2.2, lanes 1-7 ignored). -/
theorem witness_DecoderReadsOnlyItsLanes :
    (∀ k : LaneIx, k.val < 2 ^ ((0x25FFFFFFFFFFFFFF#64 : Word).extractLsb' 62 2).toNat → k.val < (8#4 : BitVec 4).toNat →
      memRead 0x25FFFFFFFFFFFFFF#64 k = memRead 0x2500000000000000#64 k) ∧
    lanesRead 0x25FFFFFFFFFFFFFF#64 8#4 = [0] ∧ lanesRead 0x8101010000000000#64 3#4 = [0] ∧
    lanesRead 0x25FFFFFFFFFFFFFF#64 0#4 = [] := by decide
theorem witness_AvailAboveEightActsAsEight : 8 ≤ (8#4 : BitVec 4).toNat ∧ 8 ≤ (15#4 : BitVec 4).toNat := by decide
theorem witness_DecodedValueIsInRange : (decodeResult 0xFFFFFFFFFFFFFFFF#64 8#4).status = 0b00#2 := by decide
theorem witness_CanonicalCheckIsExact :
    (decodeResult 0x4025000000000000#64 2#4).status = 0b00#2 ∧
    canonicalCheck (decodeResult 0x2500000000000000#64 1#4) = true := by decide
theorem witness_RoundTripGivesValueBack : (4611686018427387903#64 : Word).toNat ≤ 2 ^ 62 - 1 := by decide
theorem witness_EncodedStreamDecodesAtCursor : (0#64 : Word).toNat ≤ 2 ^ 62 - 1 := by decide
/-- The end of program P1's first command, with the second presented. -/
theorem witness_StepKeepsResultShapes :
    ∃ s t : State, s.Inv ∧ s.encRes = some (encodeResult 494878333#64) ∧ step s = .next t :=
  ⟨{ encRes := some (encodeResult 494878333#64), decRes := none, port := [.present (.cmd 0x149D7F3E7D00000000#69)] },
    _, ⟨by decide, by decide⟩, rfl, rfl⟩
theorem witness_HostReadsResultOrNone :
    valid State.reset.encRes = 0#1 ∧
    (State.reset.writeEnc (encodeResult 63#64)).Inv ∧ valid (State.reset.writeEnc (encodeResult 63#64)).encRes = 1#1 :=
  ⟨by decide, ⟨by decide, by decide⟩, by decide⟩
/-- Two commands in flight, the older due now, at LATENCY 2. -/
theorem witness_PortRefinesAtomicStep :
    ({ block := presenting (.cmd 0#69),
       inflight := [(0, 0x00000000000000003F#69), (1, 0x114100000000000000#69)] } : Pipelined).Ordered 2 :=
  ⟨by decide, by decide⟩
theorem witness_CommandCompletesAfterLatency :
    ({ block := State.reset.withPort [.present (.cmd 3#69), .idle, .idle], inflight := [] } : Pipelined).block.port =
      .present (.cmd 3#69) :: List.replicate 2 .idle := by decide
theorem witness_ResetDiscardsInFlight :
    ({ block := State.reset.withPort [.reset, .idle], inflight := [(1, 3#69)] } : Pipelined).block.port =
      .reset :: [.idle] ∧ ∀ x ∈ [Input.idle], x = .idle := by decide
/-- Two blocks, two hosts; the second host's turn, for block 0. -/
theorem witness_InstancesShareNothing :
    ({ blocks := [State.reset, State.reset], hosts := [[(1, .idle)], [(0, .present (.cmd 3#69))]], turn := 0 } :
      System).hosts.getD 1 [] = (0, .present (.cmd 3#69)) :: [] ∧
    [State.reset, State.reset][0]? = some State.reset := by decide

end Sys2Proof.Tests
end

/-! # The family of 10_state.md: the step, the two result registers, and the host's reads -/

namespace Sys2Proof.Machine

/-! ### What an instruction and a step do -/

/-- An instruction writes its own unit's register with a result that does not depend on the state (R22, R32). -/
theorem exec_writes (i : Instr) :
    (isEncoderInstr i = true ∧ ∃ value, ∀ s, exec i s = .next (s.writeEnc (encodeResult value))) ∨
    (isEncoderInstr i = false ∧ ∃ win avail, ∀ s, exec i s = .next (s.writeDec (decodeResult win avail))) := by
  cases i with
  | vliEnc _ value => exact .inl ⟨rfl, value, fun _ => rfl⟩
  | vliDec avail win => exact .inr ⟨rfl, win, avail, fun _ => rfl⟩
  | vli1 v => exact .inr ⟨rfl, _, _, fun _ => rfl⟩
  | vli2 v => exact .inr ⟨rfl, _, _, fun _ => rfl⟩
  | vli4 v => exact .inr ⟨rfl, _, _, fun _ => rfl⟩
  | vli8 v => exact .inr ⟨rfl, _, _, fun _ => rfl⟩

theorem exec_of_encoder {i : Instr} (h : isEncoderInstr i = true) :
    ∃ value, ∀ s, exec i s = .next (s.writeEnc (encodeResult value)) := by
  obtain ⟨-, hw⟩ | ⟨hd, -⟩ := exec_writes i
  · exact hw
  · rw [h] at hd; contradiction

theorem exec_of_decoder {i : Instr} (h : isEncoderInstr i = false) :
    ∃ win avail, ∀ s, exec i s = .next (s.writeDec (decodeResult win avail)) := by
  obtain ⟨he, -⟩ | ⟨-, hw⟩ := exec_writes i
  · rw [h] at he; contradiction
  · exact hw

/-- Every instruction completes and leaves the port to the step (R24). -/
theorem exec_answers (i : Instr) (s : State) : ∃ t, exec i s = .next t ∧ t.port = s.port := by
  obtain ⟨-, value, hw⟩ | ⟨-, win, avail, hw⟩ := exec_writes i
  · exact ⟨_, hw s, rfl⟩
  · exact ⟨_, hw s, rfl⟩

/-- Every step completes and takes the first input presented (R24, R52). -/
theorem step_answers (s : State) : ∃ t, step s = .next t ∧ t.port = s.port.tail := by
  match hp : s.port with
  | [] => exact ⟨s, step_empty hp, hp⟩
  | .idle :: rest => exact ⟨_, step_idle hp, rfl⟩
  | .reset :: rest => exact ⟨_, step_reset hp, rfl⟩
  | .present c :: rest =>
    rw [step_present hp]
    exact exec_answers (fetch c) (s.withPort rest)

/-- What is presented is fetched as the instruction it decodes to (R84). -/
theorem fetch_of_decode {c : Code} {i : Instr} {tail : List Byte} (h : decode c = .ok (i, tail)) : fetch c = i := by
  cases c with
  | cmd w => cases h; rfl
  | wire bytes =>
    have hw : decodeWire bytes = .ok (i, tail) := h
    simp only [fetch, hw]

theorem step_present_cmd {s : State} {w : CmdWord} {rest : List Input} (h : s.port = .present (.cmd w) :: rest) :
    step s = exec (decodeCmd w) (s.withPort rest) := step_present h

/-! ### The step and the frames: O1, O3, O4, O5, O10, O11 -/

/-- Settles O1, by the reset values of the two registers (R31). -/
theorem resetStateHasNoResults : Obligations.ResetStateHasNoResults := by
  unfold Obligations.ResetStateHasNoResults
  rintro r (rfl | rfl) <;> exact ⟨rfl, rfl, rfl, rfl⟩

/-- Settles O3: bit 68 decides which command the word decodes to, and so which register the step writes. -/
theorem commandWordRunsAtomicStep : Obligations.CommandWordRunsAtomicStep := by
  unfold Obligations.CommandWordRunsAtomicStep
  intro s w rest hp
  rw [step_present_cmd hp]
  constructor
  · intro h
    rw [decodeCmd_of_op_zero h]
    exact ⟨_, exec_vliEnc _ _ _, rfl, rfl⟩
  · intro h
    rw [decodeCmd_of_op_one h]
    exact ⟨_, exec_vliDec _ _ _, rfl, rfl⟩

/-- Settles O4, by the case split on what is presented first. -/
theorem stepAlwaysAnswersNext : Obligations.StepAlwaysAnswersNext := step_answers

/-- Settles O5: the code presented is fetched as what it decodes to. -/
theorem stepRunsDecodedInstruction : Obligations.StepRunsDecodedInstruction := by
  unfold Obligations.StepRunsDecodedInstruction
  intro s c rest i tail hp hd
  rw [step_present hp, fetch_of_decode hd]
  rfl

/-- Settles O10: VLI.ENC writes ENC_RES and nothing else. -/
theorem encoderFrame : Obligations.EncoderFrame := by
  unfold Obligations.EncoderFrame
  intro ign value s t h
  rw [exec_vliEnc] at h
  cases h
  exact ⟨rfl, rfl, fun _ => rfl⟩

/-- Settles O11: each of the five instructions is the decoder's, which writes DEC_RES and nothing else. -/
theorem decoderFrame : Obligations.DecoderFrame := by
  unfold Obligations.DecoderFrame
  intro i s t hi h
  have hdec : isEncoderInstr i = false := by
    rcases hi with ⟨_, _, rfl⟩ | ⟨_, rfl⟩ | ⟨_, rfl⟩ | ⟨_, rfl⟩ | ⟨_, rfl⟩ <;> rfl
  obtain ⟨win, avail, hw⟩ := exec_of_decoder hdec
  rw [hw] at h
  cases h
  exact ⟨rfl, rfl, fun _ => rfl⟩

/-! ### Noninterference over runs: O13 -/

/-- The register `reg` belongs to the unit whose inputs `concerns` picks out: an input that does not concern the unit
keeps the register, and one that does sets it to a value that depends on that input alone (R32, R53). -/
structure OwnedBy (reg : State → Option ResWord) (concerns : Input → Bool) : Prop where
  keeps : ∀ {s t x rest}, s.port = x :: rest → concerns x = false → step s = .next t → reg t = reg s
  sets : ∀ {x}, concerns x = true → ∃ r, ∀ {s t rest}, s.port = x :: rest → step s = .next t → reg t = r

/-- A register is a unit's own when the instructions fetched keep it or set it, as `concerns` says of them: an idle step
keeps every register, and reset clears it. -/
theorem OwnedBy.of_exec {reg : State → Option ResWord} {concerns : Input → Bool}
    (hidle : concerns .idle = false) (hreset : concerns .reset = true)
    (hport : ∀ s p, reg (State.withPort s p) = reg s) (hclear : ∀ s, reg (State.assertReset s) = none)
    (hkeep : ∀ {c}, concerns (.present c) = false → ∀ {s t}, exec (fetch c) s = .next t → reg t = reg s)
    (hset : ∀ {c}, concerns (.present c) = true → ∃ r, ∀ {s t}, exec (fetch c) s = .next t → reg t = r) :
    OwnedBy reg concerns where
  keeps := by
    intro s t x rest hp hx h
    cases x with
    | idle => rw [step_idle hp] at h; cases h; exact hport s rest
    | reset => rw [hreset] at hx; contradiction
    | present c => rw [step_present hp] at h; exact (hkeep hx h).trans (hport s rest)
  sets := by
    intro x hx
    cases x with
    | idle => rw [hidle] at hx; contradiction
    | reset => exact ⟨none, fun hp h => by rw [step_reset hp] at h; cases h; exact hclear _⟩
    | present c =>
      obtain ⟨r, hr⟩ := hset hx
      exact ⟨r, fun hp h => hr (step_present hp ▸ h)⟩

theorem encRes_ownedBy : OwnedBy State.encRes Input.concernsEnc := by
  refine .of_exec rfl rfl (fun _ _ => rfl) (fun _ => rfl) ?_ ?_
  · intro c hc s t h
    obtain ⟨win, avail, hw⟩ := exec_of_decoder (i := fetch c) hc
    rw [hw] at h; cases h; rfl
  · intro c hc
    obtain ⟨value, hw⟩ := exec_of_encoder (i := fetch c) hc
    exact ⟨some (encodeResult value), fun h => by rw [hw] at h; cases h; rfl⟩

theorem decRes_ownedBy : OwnedBy State.decRes Input.concernsDec := by
  refine .of_exec rfl rfl (fun _ _ => rfl) (fun _ => rfl) ?_ ?_
  · intro c hc s t h
    obtain ⟨value, hw⟩ := exec_of_encoder (i := fetch c) (by simpa [Input.concernsDec] using hc)
    rw [hw] at h; cases h; rfl
  · intro c hc
    obtain ⟨win, avail, hw⟩ := exec_of_decoder (i := fetch c) (by simpa [Input.concernsDec] using hc)
    exact ⟨some (decodeResult win avail), fun h => by rw [hw] at h; cases h; rfl⟩

/-- A run over everything presented starts with the step on its first input. -/
theorem run_port_cons {s : State} {x : Input} {rest : List Input} (hp : s.port = x :: rest) :
    ∃ u, step s = .next u ∧ u.port = rest ∧
      Host.Core.run core s.port.length s = Host.Core.run core u.port.length u := by
  obtain ⟨u, hu, hport⟩ := step_answers s
  rw [hp, List.tail_cons] at hport
  exact ⟨u, hu, hport, by rw [hp, hport]; exact run_succ rest.length hu⟩

/-- Two runs whose inputs agree once those that do not concern the unit are left out of the first end with the same
register, when they start with the same. By induction on the first run's inputs: an input that does not concern the unit
is a step of the first run alone. -/
theorem OwnedBy.run_eq {reg : State → Option ResWord} {concerns : Input → Bool} (ho : OwnedBy reg concerns) :
    ∀ {inputs : List Input} {s s' t t' : State}, s.port = inputs → s'.port = inputs.filter concerns →
      reg s = reg s' → Host.Core.run core s.port.length s = .next t →
      Host.Core.run core s'.port.length s' = .next t' → reg t = reg t' := by
  intro inputs
  induction inputs with
  | nil =>
    intro s s' t t' hp hp' hreg hrun hrun'
    rw [List.filter_nil] at hp'
    rw [hp, List.length_nil, run_zero] at hrun
    rw [hp', List.length_nil, run_zero] at hrun'
    cases hrun; cases hrun'
    exact hreg
  | cons x rest ih =>
    intro s s' t t' hp hp' hreg hrun hrun'
    obtain ⟨u, hu, hup, heq⟩ := run_port_cons hp
    rw [heq] at hrun
    cases hx : concerns x with
    | false =>
      rw [List.filter_cons_of_neg (by simp [hx])] at hp'
      exact ih hup hp' ((ho.keeps hp hx hu).trans hreg) hrun hrun'
    | true =>
      rw [List.filter_cons_of_pos hx] at hp'
      obtain ⟨u', hu', hup', heq'⟩ := run_port_cons hp'
      rw [heq'] at hrun'
      obtain ⟨r, hr⟩ := ho.sets hx
      exact ih hup hup' ((hr hp hu).trans (hr hp' hu').symm) hrun hrun'

/-- Settles O13: each register is its unit's own, so the inputs that do not concern the unit can be left out. -/
theorem unitsDoNotInterfereOverRuns : Obligations.UnitsDoNotInterfereOverRuns := by
  unfold Obligations.UnitsDoNotInterfereOverRuns
  intro s s' t t' hrun hrun'
  exact ⟨fun hreg hp => encRes_ownedBy.run_eq rfl hp hreg hrun hrun',
    fun hreg hp => decRes_ownedBy.run_eq rfl hp hreg hrun hrun'⟩

/-! ### The host's reads: O53 -/

/-- A host's run completes, ends where the run without its reads ends, and yields one entry a read (R50, R189). -/
theorem hostRun_answers (acts : List HostAction) (s : State) : ∃ t reads, hostRun acts s = .next (t, reads) ∧
    hostRun (acts.filter (fun a => !a.isRead)) s = .next (t, []) ∧
    reads.length = (acts.filter HostAction.isRead).length ∧ t.port = s.port := by
  induction acts generalizing s with
  | nil => exact ⟨s, [], rfl, rfl, rfl, rfl⟩
  | cons a rest ih =>
    cases a with
    | issue x =>
      obtain ⟨u, hu, -⟩ := step_answers (s.withPort [x])
      obtain ⟨t, reads, hrun, hquiet, hlen, hport⟩ := ih (u.withPort s.port)
      exact ⟨t, reads, (hostRun_issue rest hu).trans hrun, (hostRun_issue _ hu).trans hquiet, hlen, hport⟩
    | readEnc =>
      obtain ⟨t, reads, hrun, hquiet, hlen, hport⟩ := ih s
      exact ⟨t, _, hostRun_readEnc hrun, hquiet, congrArg Nat.succ hlen, hport⟩
    | readDec =>
      obtain ⟨t, reads, hrun, hquiet, hlen, hport⟩ := ih s
      exact ⟨t, _, hostRun_readDec hrun, hquiet, congrArg Nat.succ hlen, hport⟩

/-- The entry of a read is the register it reads, in the state the actions before it reach (R22). -/
theorem hostRun_entry {read : HostAction} {reg : State → Option ResWord}
    (hread : ∀ {rest s t reads}, hostRun rest s = .next (t, reads) →
      hostRun (read :: rest) s = .next (t, reg s :: reads))
    {before after : List HostAction} {s t : State} {reads : List (Option ResWord)}
    (h : hostRun (before ++ read :: after) s = .next (t, reads)) :
    ∃ u earlier later, hostRun before s = .next (u, earlier) ∧ reads = earlier ++ reg u :: later := by
  obtain ⟨u, earlier, hbefore, -⟩ := hostRun_answers before s
  obtain ⟨v, later, hafter, -⟩ := hostRun_answers after u
  rw [hostRun_append hbefore (hread hafter)] at h
  cases h
  exact ⟨u, earlier, later, hbefore, rfl⟩

/-- Settles O53, by induction on the actions, and for the entries by cutting the run at the read. -/
theorem hostReadsChangeNothing : Obligations.HostReadsChangeNothing := by
  unfold Obligations.HostReadsChangeNothing
  intro acts s
  obtain ⟨t, reads, hrun, hquiet, hlen, hport⟩ := hostRun_answers acts s
  refine ⟨t, reads, hrun, hquiet, hlen, hport, fun before after => ⟨?_, ?_⟩⟩
  · rintro rfl; exact hostRun_entry hostRun_readEnc hrun
  · rintro rfl; exact hostRun_entry hostRun_readDec hrun

/-! ### The bits the encoder writes and what a decoder would read back from them (R104, R105, R134) -/

theorem le_maxValue_iff (w : Width) (n : Nat) : n ≤ w.maxValue ↔ n < 2 ^ w.payloadBits := by
  have := Nat.two_pow_pos w.payloadBits
  rw [Width.maxValue_eq, ← Width.payloadBits]
  omega

theorem payloadBits_add_two (w : Width) : w.payloadBits + 2 = 8 * w.bytes := by cases w <;> rfl

/-- Above the payload a value of the width has no bit. -/
theorem getLsbD_of_payloadBits_le {w : Width} {value : Word} (hv : value.toNat < 2 ^ w.payloadBits) {i : Nat}
    (hi : w.payloadBits ≤ i) : value.getLsbD i = false :=
  Nat.testBit_lt_two_pow (hv.trans_le (Nat.pow_le_pow_right (by omega) hi))

/-- The packed word bit by bit: the value below the tag, the tag above it (R104). -/
theorem getLsbD_packTag {w : Width} {value : Word} (hv : value.toNat < 2 ^ w.payloadBits) (i : Nat) (hi : i < 64) :
    (packTag w value).getLsbD i =
      if i < w.payloadBits then value.getLsbD i else w.tag.getLsbD (i - w.payloadBits) := by
  rw [packTag, BitVec.getLsbD_or, BitVec.getLsbD_shiftLeft, BitVec.getLsbD_setWidth]
  split
  · simp [*]
  · rw [getLsbD_of_payloadBits_le hv (by omega)]
    simp [*, show i - w.payloadBits < 64 by omega]

/-- The packed word is an 8w-bit word: it has no bit above its tag (R104). -/
theorem getLsbD_packTag_of_ge {w : Width} {value : Word} (hv : value.toNat < 2 ^ w.payloadBits) {i : Nat}
    (hi : 8 * w.bytes ≤ i) : (packTag w value).getLsbD i = false := by
  have := payloadBits_add_two w
  by_cases h : i < 64
  · rw [getLsbD_packTag hv i h, if_neg (by omega), BitVec.getLsbD_of_ge _ _ (by omega)]
  · exact BitVec.getLsbD_of_ge _ _ (by omega)

/-- The writer left-justifies the low `8w` bits of its word (R105). -/
theorem writeLanes_eq_shift (w : Width) (W : Word) : writeLanes w W = W <<< (64 - 8 * w.bytes) := by
  apply word_eq_of_lanes
  intro k
  have hk := k.isLt
  have hw := w.bytes_le_eight
  rw [memRead_writeLanes]
  apply BitVec.eq_of_getLsbD_eq
  intro i hi
  rw [getLsbD_memRead, BitVec.getLsbD_shiftLeft]
  split
  · rw [wordByte, BitVec.getLsbD_extractLsb']
    simp [hi, show 56 - 8 * k.val + i < 64 by omega, show ¬ 56 - 8 * k.val + i < 64 - 8 * w.bytes by omega,
      show 56 - 8 * k.val + i - (64 - 8 * w.bytes) = 8 * w.bytes - 8 - 8 * k.val + i by omega]
  · simp [show 56 - 8 * k.val + i < 64 - 8 * w.bytes by omega]

/-- Joining the lanes the writer wrote gives the word back (R45). -/
theorem joinLanes_writeLanes {w : Width} {W : Word} (hW : ∀ i, 8 * w.bytes ≤ i → W.getLsbD i = false) :
    joinLanes w (writeLanes w W) = W := by
  have hw := w.bytes_le_eight
  rw [joinLanes_eq_shift, writeLanes_eq_shift]
  apply BitVec.eq_of_getLsbD_eq
  intro i hi
  rw [BitVec.getLsbD_ushiftRight, BitVec.getLsbD_shiftLeft]
  by_cases h : 8 * w.bytes ≤ i
  · simp [hW i h, show ¬ 64 - 8 * w.bytes + i < 64 by omega]
  · simp [show 64 - 8 * w.bytes + i < 64 by omega]

/-- Clearing the tag keeps the payload bits and no other (R134). -/
theorem getLsbD_clearTag (w : Width) (W : Word) (i : Nat) :
    (clearTag w W).getLsbD i = (decide (i < w.payloadBits) && W.getLsbD i) := by
  rw [BitVec.getLsbD, toNat_clearTag, ← Width.payloadBits, Nat.testBit_mod_two_pow]
  rfl

/-- Clearing the tag the packer put in gives the value back (R104, R134). -/
theorem clearTag_packTag {w : Width} {value : Word} (hv : value.toNat < 2 ^ w.payloadBits) :
    clearTag w (packTag w value) = value := by
  apply BitVec.eq_of_getLsbD_eq
  intro i hi
  rw [getLsbD_clearTag, getLsbD_packTag hv i hi]
  by_cases h : i < w.payloadBits
  · simp [h]
  · rw [getLsbD_of_payloadBits_le hv (by omega)]
    simp [h]

/-- The first byte written carries the tag (R70-R73). -/
theorem tagOf_writeLanes_packTag {w : Width} {value : Word} (hv : value.toNat < 2 ^ w.payloadBits) :
    tagOf (memRead (writeLanes w (packTag w value)) 0) = w.tag := by
  have hw := w.bytes_pos
  have hp := payloadBits_add_two w
  apply BitVec.eq_of_getLsbD_eq
  intro i hi
  rw [memRead_writeLanes, if_pos (by simpa using hw), tagOf, wordByte, BitVec.getLsbD_extractLsb',
    BitVec.getLsbD_extractLsb', getLsbD_packTag hv _ (by have := w.bytes_le_eight; omega)]
  simp [hi, show 6 + i < 8 by omega, show ¬ 8 * w.bytes - 8 + (6 + i) < w.payloadBits by omega,
    show 8 * w.bytes - 8 + (6 + i) - w.payloadBits = i by omega]

/-! ### What a result register may hold, said as propositions -/

theorem mem_allWidths (w : Width) : w ∈ allWidths := by cases w <;> decide

theorem mem_allLanes (k : LaneIx) : k ∈ allLanes := by revert k; decide

/-- What VLI.ENC may leave (R111, R161). -/
theorem encShape_iff (r : ResWord) : encShape r = true ↔ r = raise .valueTooLarge ∨
    ∃ w : Width, r.status = statusOk ∧ r.len = lenField w ∧ tagOf (memRead r.data 0) = w.tag ∧
      minimalFrom w ≤ (clearTag w (joinLanes w r.data)).toNat ∧
      ∀ k : LaneIx, w.bytes ≤ k.val → memRead r.data k = 0#8 := by
  simp only [encShape, Bool.or_eq_true, decide_eq_true_eq, List.any_eq_true, List.all_eq_true, Bool.and_eq_true,
    mem_allWidths, mem_allLanes, true_and, forall_const, and_assoc, or_iff_not_imp_left (a := _ < _), not_lt]

/-- What VLI.DEC may leave (R142, R162). -/
theorem decShape_iff (r : ResWord) : decShape r = true ↔ r = raise .insufficientData ∨
    ∃ w : Width, r.status = statusOk ∧ r.len = lenField w ∧ r.data.toNat ≤ w.maxValue := by
  simp only [decShape, Bool.or_eq_true, decide_eq_true_eq, List.any_eq_true, Bool.and_eq_true, mem_allWidths, true_and,
    and_assoc]

/-- The encoder leaves an error, or the minimal form of its value with zeros after it (R106, R111). -/
theorem encShape_encodeResult (value : Word) : encShape (encodeResult value) = true := by
  rw [encShape_iff]
  obtain ⟨-, hr⟩ | ⟨w, hmin, hmax, hr⟩ := encodeResult_cases value
  · exact .inl hr
  · have hv := (le_maxValue_iff w _).1 hmax
    rw [hr]
    refine .inr ⟨w, rfl, rfl, tagOf_writeLanes_packTag hv, ?_, fun k hk => ?_⟩
    · rw [success_data, joinLanes_writeLanes fun i => getLsbD_packTag_of_ge hv, clearTag_packTag hv]
      exact hmin
    · rw [success_data, memRead_writeLanes, if_neg (by omega)]

/-- The decoder leaves an error, or a value its width holds (R135, R142). -/
theorem decShape_decodeResult (win : Word) (avail : BitVec 4) : decShape (decodeResult win avail) = true := by
  rw [decShape_iff]
  obtain ⟨-, hr⟩ | ⟨-, hr⟩ := decodeResult_cases win avail
  · exact .inl hr
  · rw [hr]
    refine .inr ⟨windowWidth win, rfl, rfl, ?_⟩
    rw [le_maxValue_iff, success_data, toNat_clearTag]
    exact Nat.mod_lt _ (Nat.two_pow_pos _)

/-! ### The invariant of the result registers: O50, O51 -/

theorem State.inv_reset : State.reset.Inv := ⟨rfl, rfl⟩

theorem State.Inv.withPort {s : State} (h : s.Inv) (p : List Input) : (s.withPort p).Inv := h

theorem State.inv_assertReset (s : State) : s.assertReset.Inv := ⟨rfl, rfl⟩

theorem State.Inv.writeEnc {s : State} (h : s.Inv) {r : ResWord} (hr : encShape r = true) : (s.writeEnc r).Inv :=
  ⟨hr, h.2⟩

theorem State.Inv.writeDec {s : State} (h : s.Inv) {r : ResWord} (hr : decShape r = true) : (s.writeDec r).Inv :=
  ⟨h.1, hr⟩

/-- An instruction keeps the invariant: it writes one register, with a result of that register's unit. -/
theorem exec_keeps_inv {i : Instr} {s t : State} (hs : s.Inv) (h : exec i s = .next t) : t.Inv := by
  obtain ⟨value, rfl⟩ | ⟨win, avail, rfl⟩ := exec_cases h
  · exact hs.writeEnc (encShape_encodeResult value)
  · exact hs.writeDec (decShape_decodeResult win avail)

/-- Settles O50, by the cases of a step. -/
theorem stepKeepsResultShapes : Obligations.StepKeepsResultShapes := by
  unfold Obligations.StepKeepsResultShapes
  intro s t hs h
  obtain ⟨-, rfl⟩ | ⟨rest, -, rfl⟩ | ⟨rest, -, rfl⟩ | ⟨c, rest, -, hexec⟩ := step_cases h
  · exact hs
  · exact hs.withPort rest
  · exact State.inv_assertReset _
  · exact exec_keeps_inv (hs.withPort rest) hexec

/-- Settles O51: neither register holds a result after reset (R31). -/
theorem resetHasResultShapes : Obligations.ResetHasResultShapes := State.inv_reset

end Sys2Proof.Machine

/-! # The family of 20_memory.md: the window and AVAIL a host loads, the lanes VLI.DEC reads, registers over a run -/

namespace Sys2Proof

/-! ### The bytes of a form read back (R69-R74) -/

/-- The last of joined bytes is the join's low byte. -/
theorem extractLsb'_append_low {n m : Nat} (x : BitVec n) (b : Byte) (hm : 8 ≤ m) :
    ((x ++ b).setWidth m).extractLsb' 0 8 = b := by
  apply BitVec.eq_of_getLsbD_eq
  intro i hi
  simp [BitVec.getLsbD_append, hi, show i < m by omega]

/-- Above the last of joined bytes stand the bytes before it. -/
theorem extractLsb'_append_high {n m k l : Nat} (x : BitVec n) (b : Byte) (h : k + l ≤ m) :
    ((x ++ b).setWidth (m + 8)).extractLsb' (k + 8) l = (x.setWidth m).extractLsb' k l := by
  apply BitVec.eq_of_getLsbD_eq
  intro i hi
  rw [BitVec.getLsbD_extractLsb', BitVec.getLsbD_extractLsb', BitVec.getLsbD_setWidth, BitVec.getLsbD_setWidth,
    BitVec.getLsbD_append, if_neg (by omega), show k + 8 + i - 8 = k + i by omega]
  simp [show k + 8 + i < m + 8 by omega, show k + i < m by omega]

/-- A first byte is its tag and its six payload bits (R69). -/
theorem tagOf_append_payload (b : Byte) : tagOf b ++ b.setWidth 6 = b := by
  apply BitVec.eq_of_getLsbD_eq
  intro i hi
  show BitVec.getLsbD (w := 2 + 6) (tagOf b ++ b.setWidth 6) i = _
  rw [BitVec.getLsbD_append, tagOf, BitVec.getLsbD_extractLsb', BitVec.getLsbD_setWidth]
  split
  · simp [*]
  · simp [show i - 6 < 2 by omega, show 6 + (i - 6) = i by omega]

/-- The instruction a form is read as has that form's bytes for its encoding (R70-R73). -/
theorem encode_of_readForm {w : Width} {b0 : Byte} {rest tail : List Byte} {i : Instr} (hw : tagOf b0 = w.tag)
    (h : readForm w b0 rest = .ok (i, tail)) :
    encode i = .wire ((b0 :: rest).take w.bytes) := by
  have hb0 : w.tag ++ b0.setWidth 6 = b0 := hw ▸ tagOf_append_payload b0
  match w, rest, h with
  | .w1, _, rfl => exact congrArg (fun b => Code.wire [b]) hb0
  | .w2, b1 :: _, rfl =>
    simp (disch := decide) only [encode, wireBytes2, Width.bytes, List.take, extractLsb'_append_low,
      extractLsb'_append_high, BitVec.extractLsb'_eq_self]
    exact congrArg (fun b => Code.wire [b, b1]) hb0
  | .w4, b1 :: b2 :: b3 :: _, rfl =>
    simp (disch := decide) only [encode, wireBytes4, Width.bytes, List.take, extractLsb'_append_low,
      extractLsb'_append_high, BitVec.extractLsb'_eq_self]
    exact congrArg (fun b => Code.wire [b, b1, b2, b3]) hb0
  | .w8, b1 :: b2 :: b3 :: b4 :: b5 :: b6 :: b7 :: _, rfl =>
    simp (disch := decide) only [encode, wireBytes8, Width.bytes, List.take, extractLsb'_append_low,
      extractLsb'_append_high, BitVec.extractLsb'_eq_self]
    exact congrArg (fun b => Code.wire [b, b1, b2, b3, b4, b5, b6, b7]) hb0

end Sys2Proof

namespace Sys2Proof.Machine

/-! ### The lanes VLI.DEC reads, and the AVAIL it is given: O44, O45 -/

/-- The lanes read, as R48 says them: lane 0 of a source that is not empty, all the form's lanes of one not short. -/
theorem mem_lanesRead (win : Word) (avail : BitVec 4) (k : LaneIx) :
    k ∈ lanesRead win avail ↔ (k.val = 0 ∧ 1 ≤ avail.toNat) ∨
      (k.val < (windowWidth win).bytes ∧ (windowWidth win).bytes ≤ avail.toNat) := by
  have hpos := (windowWidth win).bytes_pos
  have hzero : avail = 0#4 ↔ avail.toNat = 0 := BitVec.toNat_inj.symm
  unfold lanesRead
  split_ifs with h0 hs <;> rw [hzero] at h0
  · simp only [List.not_mem_nil, false_iff]; omega
  · simp only [List.mem_singleton, Fin.ext_iff, Fin.val_zero]; omega
  · rw [mem_formLanes]; omega

/-- Every lane read is one of the window's form, and holds a source byte (R48). -/
theorem lt_of_mem_lanesRead {win : Word} {avail : BitVec 4} {k : LaneIx} (h : k ∈ lanesRead win avail) :
    k.val < (windowWidth win).bytes ∧ k.val < avail.toNat := by
  have hpos := (windowWidth win).bytes_pos
  obtain h | h := (mem_lanesRead win avail k).1 h <;> omega

theorem windowWidth_congr {win win' : Word} (h : memRead win 0 = memRead win' 0) : windowWidth win = windowWidth win' :=
  congrArg widthOf h

/-- The result depends on the window through the lanes of `lanesRead` alone (R48). -/
theorem decodeResult_congr_lanes {win win' : Word} {avail : BitVec 4}
    (h : ∀ k ∈ lanesRead win avail, memRead win k = memRead win' k) :
    decodeResult win avail = decodeResult win' avail := by
  by_cases h0 : avail = 0#4
  · rw [decodeResult_of_short (.inl h0), decodeResult_of_short (.inl h0)]
  · have hpos : 1 ≤ avail.toNat := by
      rw [← BitVec.toNat_inj] at h0
      exact Nat.one_le_iff_ne_zero.2 h0
    have hw : windowWidth win = windowWidth win' :=
      windowWidth_congr (h 0 ((mem_lanesRead win avail 0).2 (.inl ⟨rfl, hpos⟩)))
    obtain ⟨hs, hr⟩ | ⟨hn, hr⟩ := decodeResult_cases win avail
    · rw [hr, decodeResult_of_short (by unfold Short at hs ⊢; rwa [← hw])]
    · rw [hr, decodeResult_of_enough (win := win') (hw ▸ hn), ← hw,
        joinLanes_congr fun k hk => h k ((mem_lanesRead win avail k).2 (.inr ⟨hk, hn⟩))]

/-- The result depends on AVAIL only through whether it reaches the window's width (R133). -/
theorem decodeResult_congr_avail {win : Word} {avail avail' : BitVec 4}
    (h : (windowWidth win).bytes ≤ avail.toNat ↔ (windowWidth win).bytes ≤ avail'.toNat) :
    decodeResult win avail = decodeResult win avail' := by
  by_cases hn : (windowWidth win).bytes ≤ avail.toNat
  · rw [decodeResult_of_enough hn, decodeResult_of_enough (h.1 hn)]
  · rw [decodeResult_of_short (.inr (by omega)), decodeResult_of_short (.inr (by omega))]

/-- Settles O44: the result is a function of the lanes of `lanesRead`, and each of those is below w and below AVAIL. -/
theorem decoderReadsOnlyItsLanes : Obligations.DecoderReadsOnlyItsLanes := by
  unfold Obligations.DecoderReadsOnlyItsLanes
  simp only [← bytes_windowWidth]
  refine ⟨mem_lanesRead, fun win win' avail h => decodeResult_congr_lanes fun k hk => ?_⟩
  obtain ⟨hform, hsource⟩ := lt_of_mem_lanesRead hk
  exact h k hform hsource

/-- Settles O45: no form is longer than 8 bytes, so no AVAIL from 8 on is short. -/
theorem availAboveEightActsAsEight : Obligations.AvailAboveEightActsAsEight := by
  unfold Obligations.AvailAboveEightActsAsEight
  intro win avail h8
  have hle := (windowWidth win).bytes_le_eight
  have hn : (windowWidth win).bytes ≤ avail.toNat := hle.trans h8
  exact ⟨by rw [decodeResult_of_enough hn, success_status], decodeResult_congr_avail ⟨fun _ => hle, fun _ => hn⟩⟩

/-! ### What the host loads from source bytes (R42, R43) -/

@[simp] theorem memRead_windowOf (fill : Nat → Byte) (bytes : List Byte) (k : LaneIx) :
    memRead (windowOf fill bytes) k = bytes.getD k (fill k) := memRead_packLanes _ k

/-- Up to 8, AVAIL counts the source bytes, whichever value from 8 to 15 stands for 8 or more (R42, R43). -/
theorem le_availOf_iff (extra : Fin 8) (bytes : List Byte) {n : Nat} (hn : n ≤ 8) :
    n ≤ (availOf extra bytes).toNat ↔ n ≤ bytes.length := by
  have := extra.isLt
  unfold availOf
  split
  · rw [BitVec.toNat_ofNat, Nat.mod_eq_of_lt (by omega)]
  · rw [BitVec.toNat_ofNat, Nat.mod_eq_of_lt (by omega)]; omega

/-- The loaded VLI.DEC has one result, whatever fills the lanes past the bytes (U8) and whichever AVAIL above 7 stands
for 8 or more bytes (R43): a lane that is read holds a source byte. -/
theorem decodeResult_loaded (fill fill' : Nat → Byte) (extra extra' : Fin 8) (bytes : List Byte) :
    decodeResult (windowOf fill bytes) (availOf extra bytes) =
      decodeResult (windowOf fill' bytes) (availOf extra' bytes) := by
  calc decodeResult (windowOf fill bytes) (availOf extra bytes)
    _ = decodeResult (windowOf fill' bytes) (availOf extra bytes) := decodeResult_congr_lanes fun k hk => by
        have hk' : k.val < bytes.length := (le_availOf_iff extra bytes k.isLt).1 (lt_of_mem_lanesRead hk).2
        rw [memRead_windowOf, memRead_windowOf, List.getD_eq_getElem _ _ hk', List.getD_eq_getElem _ _ hk']
    _ = decodeResult (windowOf fill' bytes) (availOf extra' bytes) := decodeResult_congr_avail (by
        have hle := (windowWidth (windowOf fill' bytes)).bytes_le_eight
        rw [le_availOf_iff extra bytes hle, le_availOf_iff extra' bytes hle])

/-! ### Dispatch on the wire form: O9 -/

/-- A wire form as an instruction decodes its own bytes (R82, R84). -/
theorem exec_of_encode_wire {i : Instr} {bytes : List Byte} (h : encode i = .wire bytes) (s : State) :
    exec i s = .next (decodeForm bytes s) := by
  cases i with
  | vliEnc ign value => cases h
  | vliDec avail win => cases h
  | vli1 v => cases h; rfl
  | vli2 v => cases h; rfl
  | vli4 v => cases h; rfl
  | vli8 v => cases h; rfl

/-- Decoding a form's own bytes, as VLI.DECB does, gives what the loaded window gives (R48, R82). -/
theorem decodeResult_decb_take {bytes : List Byte} {w : Width} (hlen : w.bytes ≤ bytes.length) (fill : Nat → Byte)
    (extra : Fin 8) (hw : windowWidth (windowOf fill bytes) = w) :
    decodeResult (decbWindow (bytes.take w.bytes)) (decbAvail (bytes.take w.bytes)) =
      decodeResult (windowOf fill bytes) (availOf extra bytes) := by
  have hle := w.bytes_le_eight
  have hav : (decbAvail (bytes.take w.bytes)).toNat = w.bytes := by
    rw [decbAvail, List.length_take, Nat.min_eq_left hlen, BitVec.toNat_ofNat, Nat.mod_eq_of_lt (by omega)]
  calc decodeResult (decbWindow (bytes.take w.bytes)) (decbAvail (bytes.take w.bytes))
    _ = decodeResult (windowOf fill bytes) (decbAvail (bytes.take w.bytes)) := decodeResult_congr_lanes fun k hk => by
        have hk' : k.val < w.bytes := hav ▸ (lt_of_mem_lanesRead hk).2
        rw [decbWindow, memRead_windowOf, memRead_windowOf,
          List.getD_eq_getElem _ _ (by rw [List.length_take]; omega), List.getD_eq_getElem _ _ (by omega),
          List.getElem_take]
    _ = decodeResult (windowOf fill bytes) (availOf extra bytes) := decodeResult_congr_avail (by
        rw [hw, hav, le_availOf_iff extra bytes hle]
        exact ⟨fun _ => hlen, fun _ => le_rfl⟩)

/-- Source bytes, holding a whole form or not, are performed as the VLI.DEC of any window the host may load. -/
theorem exec_fetch_wire (bytes : List Byte) (fill : Nat → Byte) (extra : Fin 8) (s : State) :
    exec (fetch (.wire bytes)) s = exec (.vliDec (availOf extra bytes) (windowOf fill bytes)) s := by
  cases hd : decodeWire bytes with
  | error e =>
    have hf : fetch (.wire bytes) = .vliDec (sourceAvail bytes) (sourceWindow bytes) := by simp only [fetch, hd]
    rw [hf, exec_vliDec, exec_vliDec, sourceWindow, sourceAvail, decodeResult_loaded _ fill _ extra]
  | ok p =>
    obtain ⟨i, tail⟩ := p
    rw [fetch_of_decode (c := .wire bytes) hd]
    cases bytes with
    | nil => cases hd
    | cons b0 rest =>
      have hlen : (widthOf b0).bytes ≤ (b0 :: rest).length := by
        by_contra hshort
        rw [decodeWire_cons, readForm_short _ _ _ (Nat.lt_of_not_le hshort)] at hd
        cases hd
      have henc : encode i = .wire ((b0 :: rest).take (widthOf b0).bytes) := encode_of_readForm (tag_widthOf b0).symm hd
      have hw : windowWidth (windowOf fill (b0 :: rest)) = widthOf b0 :=
        congrArg widthOf (memRead_windowOf fill (b0 :: rest) 0)
      rw [exec_of_encode_wire henc, exec_vliDec, decodeForm, decodeResult_decb_take hlen fill extra hw]

/-- Settles O9: the step performs what it fetches from the bytes. -/
theorem wireDispatchEqualsLoadedVliDec : Obligations.WireDispatchEqualsLoadedVliDec := by
  unfold Obligations.WireDispatchEqualsLoadedVliDec
  intro s bytes rest hp fill extra
  rw [step_present hp]
  exact exec_fetch_wire bytes fill extra (s.withPort rest)

/-! ### Commands and the registers they write: O12, O14 -/

/-- Settles O12: the result a command writes does not depend on the state, and writing it again changes nothing. -/
theorem commandsAreIdempotent : Obligations.CommandsAreIdempotent := by
  unfold Obligations.CommandsAreIdempotent
  intro i s t h
  obtain ⟨-, value, hw⟩ | ⟨-, win, avail, hw⟩ := exec_writes i
  · rw [hw] at h; cases h
    exact hw _
  · rw [hw] at h; cases h
    exact hw _

/-- A register keeps what it holds over a run none of whose inputs concerns its unit: it ends as after no input. -/
theorem OwnedBy.run_keeps {reg : State → Option ResWord} {concerns : Input → Bool} (ho : OwnedBy reg concerns)
    {s t : State} (hquiet : reg (s.withPort []) = reg s) (hc : ∀ x ∈ s.port, concerns x = false)
    (hrun : Host.Core.run core s.port.length s = .next t) : reg t = reg s := by
  have hnone : s.port.filter concerns = [] := List.filter_eq_nil_iff.2 fun x hx => by simp [hc x hx]
  exact (ho.run_eq (s' := s.withPort []) rfl hnone.symm hquiet.symm hrun (run_zero _)).trans hquiet

theorem decodeCmd_of_cmdOp_one {w : CmdWord} (h : cmdOp w = 1#1) : decodeCmd w = .vliDec (cmdAvail w) (cmdOperand w) :=
  if_neg (by rw [h]; decide)

/-- Settles O14: the first step writes the word's result, and the run of the later inputs keeps the register. -/
theorem registerHoldsLatestResult : Obligations.RegisterHoldsLatestResult := by
  unfold Obligations.RegisterHoldsLatestResult
  intro s t w later hp hrun
  obtain ⟨u, hu, hup, heq⟩ := run_port_cons hp
  rw [heq] at hrun
  rw [step_present_cmd hp] at hu
  refine ⟨fun hop hlater => ?_, fun hop hlater => ?_⟩
  · rw [decodeCmd_of_op_zero ((cmdOp_eq_zero_iff w).1 hop), exec_vliEnc] at hu
    rw [encRes_ownedBy.run_keeps rfl (hup ▸ hlater) hrun]
    cases hu; rfl
  · rw [decodeCmd_of_cmdOp_one hop, exec_vliDec] at hu
    rw [decRes_ownedBy.run_keeps rfl (hup ▸ hlater) hrun]
    cases hu; rfl

/-! ### The bytes a host appends, read back at its cursor: O49 -/

/-- A window whose form's lanes are those the encoder writes decodes to the value written, whatever its other lanes hold
(R48, R141). -/
theorem decodeResult_of_written {w : Width} {value win : Word} {avail : BitVec 4}
    (hv : value.toNat < 2 ^ w.payloadBits) (hav : w.bytes ≤ avail.toNat)
    (h : ∀ k : LaneIx, k.val < w.bytes → memRead win k = memRead (writeLanes w (packTag w value)) k) :
    decodeResult win avail = success w value := by
  have hw : windowWidth win = w := by
    rw [windowWidth_congr (h 0 w.bytes_pos), windowWidth, widthOf, tagOf_writeLanes_packTag hv, Width.ofTag_tag]
  rw [decodeResult_of_enough (by rwa [hw]), hw, joinLanes_congr h,
    joinLanes_writeLanes fun i => getLsbD_packTag_of_ge hv, clearTag_packTag hv]

/-- The bytes appended for a success are the lanes of its form (R41, R43). -/
theorem appendResult_success (sink : List Byte) (w : Width) (data : Word) :
    appendResult sink (success w data) = sink ++ (formLanes w).map (memRead data) := by
  rw [appendResult, resultBytes, success_len, success_data, toNat_lenField, allLanes_take]

theorem getElem?_formLanes (w : Width) (k : LaneIx) (h : k.val < w.bytes) : (formLanes w)[k.val]? = some k := by
  revert k; cases w <;> decide

/-- A window loaded from a form's lanes and any bytes after them has that form's lanes (R42). -/
theorem memRead_windowOf_formLanes (fill : Nat → Byte) (w : Width) (data : Word) (rest : List Byte) {k : LaneIx}
    (h : k.val < w.bytes) : memRead (windowOf fill ((formLanes w).map (memRead data) ++ rest)) k = memRead data k := by
  rw [memRead_windowOf, List.getD_eq_getElem?_getD,
    List.getElem?_append_left (by rw [List.length_map, length_formLanes]; exact h), List.getElem?_map,
    getElem?_formLanes w k h]
  rfl

/-- Settles O49: the window loaded from the cursor has the lanes the encoder wrote, and LEN is the number of bytes they
are. -/
theorem encodedStreamDecodesAtCursor : Obligations.EncodedStreamDecodesAtCursor := by
  unfold Obligations.EncodedStreamDecodesAtCursor
  intro v rest s hv
  obtain ⟨hgt, -⟩ | ⟨w, -, hmax, henc⟩ := encodeResult_cases v
  · unfold Config.maxValue at hgt; omega
  have hlen : ((formLanes w).map (memRead (writeLanes w (packTag w v)))).length = w.bytes := by
    rw [List.length_map, length_formLanes]
  rw [henc, appendResult_success, List.nil_append]
  refine ⟨success w v, _, exec_vliDec _ _ s, ?_, rfl, rfl, rfl, ?_⟩
  · refine congrArg some (decodeResult_of_written ((le_maxValue_iff w _).1 hmax) ?_ fun k hk =>
      memRead_windowOf_formLanes _ w _ rest hk)
    rw [sourceAvail, le_availOf_iff _ _ w.bytes_le_eight, List.length_append]
    omega
  · rw [advanceCursor, success_len, toNat_lenField, List.drop_left' hlen]

end Sys2Proof.Machine

/-! # The family of 30_encoding.md: command words, wire forms, result words, the assembler -/

namespace Sys2Proof

/-! ### Decoding what was encoded: O19 -/

theorem decodeCmd_cmdWord_zero (ign : BitVec 4) (value : Word) :
    decodeCmd (cmdWord 0#1 ign value) = .vliEnc ign value := by
  rw [decodeCmd_of_op_zero ((cmdOp_eq_zero_iff _).1 (cmdOp_cmdWord _ _ _)), cmdAvail_cmdWord, cmdOperand_cmdWord]

theorem decodeCmd_cmdWord_one (avail : BitVec 4) (win : Word) :
    decodeCmd (cmdWord 1#1 avail win) = .vliDec avail win := by
  rw [Machine.decodeCmd_of_cmdOp_one (cmdOp_cmdWord _ _ _), cmdAvail_cmdWord, cmdOperand_cmdWord]

/-- A form's operand joined as far as the first byte: its payload, the tag left out (R69, R134). -/
theorem setWidth_tag_append_extractLsb' {l : Nat} (t : BitVec 2) (v : BitVec l) (k : Nat) :
    (t ++ v.extractLsb' k 6).setWidth 6 = v.extractLsb' k 6 :=
  BitVec.setWidth_append_eq_right

/-- A form's operand joined one byte further: its next lower byte follows the bits joined so far (R134). -/
theorem setWidth_append_extractLsb' {n m k l : Nat} {x : BitVec n} {v : BitVec l}
    (h : x.setWidth m = v.extractLsb' (k + 8) m) :
    (x ++ v.extractLsb' k 8).setWidth (m + 8) = v.extractLsb' k (m + 8) := by
  apply BitVec.eq_of_getLsbD_eq
  intro i hi
  rw [BitVec.getLsbD_setWidth, BitVec.getLsbD_append, BitVec.getLsbD_extractLsb', BitVec.getLsbD_extractLsb']
  split
  · simp [*]
  · have hbit := congrArg (fun y => y.getLsbD (i - 8)) h
    rw [BitVec.getLsbD_setWidth, BitVec.getLsbD_extractLsb', show k + 8 + (i - 8) = k + i by omega] at hbit
    simpa [hi, show i - 8 < m by omega] using hbit

/-- A form of width `w` is read by `w`, whatever its first byte's payload (R69, R74). -/
theorem decodeWire_tag_append (w : Width) (p : BitVec 6) (rest : List Byte) :
    decodeWire ((w.tag ++ p) :: rest) = readForm w (w.tag ++ p) rest := by
  rw [decodeWire_cons, widthOf_append]

/-- The bytes of a wire form are read as that form, and whatever follows them is left (R69-R74). -/
theorem decodeWire_of_encode {i : Instr} {bytes : List Byte} (h : encode i = .wire bytes) (rest : List Byte) :
    decodeWire (bytes ++ rest) = .ok (i, rest) := by
  cases i with
  | vliEnc ign value => cases h
  | vliDec avail win => cases h
  | vli1 v =>
    cases h
    exact (decodeWire_tag_append .w1 v rest).trans
      (congrArg (fun x => Except.ok (Instr.vli1 x, rest)) BitVec.setWidth_append_eq_right)
  | vli2 v =>
    cases h
    have hv := setWidth_append_extractLsb' (k := 0) (setWidth_tag_append_extractLsb' Width.w2.tag v 8)
    rw [BitVec.extractLsb'_eq_self] at hv
    exact (decodeWire_tag_append .w2 _ _).trans (congrArg (fun x => Except.ok (Instr.vli2 x, rest)) hv)
  | vli4 v =>
    cases h
    have hv := setWidth_append_extractLsb' (k := 0) <| setWidth_append_extractLsb' (k := 8) <|
      setWidth_append_extractLsb' (k := 16) (setWidth_tag_append_extractLsb' Width.w4.tag v 24)
    rw [BitVec.extractLsb'_eq_self] at hv
    exact (decodeWire_tag_append .w4 _ _).trans (congrArg (fun x => Except.ok (Instr.vli4 x, rest)) hv)
  | vli8 v =>
    cases h
    have hv := setWidth_append_extractLsb' (k := 0) <| setWidth_append_extractLsb' (k := 8) <|
      setWidth_append_extractLsb' (k := 16) <| setWidth_append_extractLsb' (k := 24) <|
      setWidth_append_extractLsb' (k := 32) <| setWidth_append_extractLsb' (k := 40) <|
      setWidth_append_extractLsb' (k := 48) (setWidth_tag_append_extractLsb' Width.w8.tag v 56)
    rw [BitVec.extractLsb'_eq_self] at hv
    exact (decodeWire_tag_append .w8 _ _).trans (congrArg (fun x => Except.ok (Instr.vli8 x, rest)) hv)

/-- Every instruction is decoded from its own code, with nothing left over (R60, R69). -/
theorem decode_encode (i : Instr) : decode (encode i) = .ok (i, []) := by
  match h : encode i with
  | .wire bytes =>
    have hd := decodeWire_of_encode h []
    rwa [List.append_nil] at hd
  | .cmd w =>
    cases i with
    | vliEnc ign value => cases h; exact congrArg (fun j => Except.ok (j, [])) (decodeCmd_cmdWord_zero ign value)
    | vliDec avail win => cases h; exact congrArg (fun j => Except.ok (j, [])) (decodeCmd_cmdWord_one avail win)
    | vli1 v | vli2 v | vli4 v | vli8 v => cases h

/-- Settles O19: a wire form is read off the front of its bytes, and a command word's fields are read back. -/
theorem decodeOfEncodeIsIdentity : Obligations.DecodeOfEncodeIsIdentity := by
  unfold Obligations.DecodeOfEncodeIsIdentity
  exact fun i => ⟨decode_encode i, fun _ rest h => decodeWire_of_encode h rest⟩

/-! ### Widths, and encoding what was decoded: O15, O17, O18, O20, O21 -/

/-- Settles O15: the two values of bit 68 are the two cases of decodeCmd. -/
theorem opcodeBitSelectsCommand : Obligations.OpcodeBitSelectsCommand := by
  unfold Obligations.OpcodeBitSelectsCommand
  intro w
  exact ⟨fun h => congrArg (fun i => Except.ok (i, [])) (decodeCmd_of_op_zero h),
    fun h => congrArg (fun i => Except.ok (i, [])) (decodeCmd_of_op_one h)⟩

theorem Width.bytes_eq_two_pow_tag (w : Width) : w.bytes = 2 ^ w.tag.toNat := by
  rw [← Width.bytes_ofTag, Width.ofTag_tag]

/-- Settles O17: each tag names one width and each width one tag, and a width has `2^tag` bytes. -/
theorem tagsAndWidthsAreBijective : Obligations.TagsAndWidthsAreBijective := by
  unfold Obligations.TagsAndWidthsAreBijective
  refine ⟨fun w => ⟨Width.ofTag_tag w, w.bytes_eq_two_pow_tag, ?_⟩, Width.tag_ofTag⟩
  rw [Width.bytes_eq_two_pow_tag, Nat.log2_two_pow]

/-- Settles O18: the form is read by the width the first byte names, and needs that many bytes. -/
theorem firstByteDecidesWireLength : Obligations.FirstByteDecidesWireLength := by
  unfold Obligations.FirstByteDecidesWireLength
  intro b0 bs
  rw [← bytes_widthOf, decodeWire_cons]
  exact ⟨readForm_ok _ _ _, readForm_short _ _ _⟩

/-- The word of the command a command word is decoded to is that word (R60, R61). -/
theorem encode_decodeCmd (w : CmdWord) : encode (decodeCmd w) = .cmd w := by
  obtain h | h := (cmdOp w).eq_zero_or_eq_one
  · rw [decodeCmd_of_op_zero ((cmdOp_eq_zero_iff w).1 h), encode, ← h, cmdWord_fields]
  · rw [Machine.decodeCmd_of_cmdOp_one h, encode, ← h, cmdWord_fields]

/-- Source bytes as many as the first says are the encoding of the form read from them, with nothing left (R69, R74). -/
theorem encode_of_decodeWire {bytes tail : List Byte} {i : Instr} (hwf : (Code.wire bytes).wf = true)
    (h : decodeWire bytes = .ok (i, tail)) : encode i = .wire bytes ∧ tail = [] := by
  cases bytes with
  | nil => cases h
  | cons b0 rest =>
    have hlen : (b0 :: rest).length = (widthOf b0).bytes := by
      rw [bytes_widthOf]; exact of_decide_eq_true hwf
    rw [decodeWire_cons] at h
    obtain ⟨j, hj⟩ := readForm_ok (widthOf b0) b0 rest hlen.ge
    have henc := encode_of_readForm (tag_widthOf b0).symm h
    rw [hj, ← hlen, List.drop_length] at h
    rw [← hlen, List.take_length] at henc
    cases h
    exact ⟨henc, rfl⟩

/-- Settles O20, for command words by their fields and for source bytes by the form they hold. -/
theorem encodeOfDecodeIsIdentity : Obligations.EncodeOfDecodeIsIdentity := by
  unfold Obligations.EncodeOfDecodeIsIdentity
  intro c i tail hwf h
  cases c with
  | cmd w => cases h; exact ⟨encode_decodeCmd w, rfl⟩
  | wire bytes => exact encode_of_decodeWire hwf h

/-- Settles O21, by running the decoder on the six written-out codes. -/
theorem specWordsDecodeAsWritten : Obligations.SpecWordsDecodeAsWritten := by
  unfold Obligations.SpecWordsDecodeAsWritten
  decide

end Sys2Proof

namespace Sys2Proof.Machine

/-! ### Performing a decoded word: O6, O16 -/

theorem decode_of_decodeTableWord {nbits w : Nat} {i : Instr} (h : decodeTableWord nbits w = some i) :
    ∃ tail, decode (tableCode nbits w) = .ok (i, tail) := by
  unfold decodeTableWord at h
  split at h
  · cases h
  · split at h
    next j tail hd => cases h; exact ⟨tail, hd⟩
    next => cases h

/-- Settles O6: the word is presented as the code that decodes to the instruction. -/
theorem fetchWordRunsTableInstruction : Obligations.FetchWordRunsTableInstruction := by
  unfold Obligations.FetchWordRunsTableInstruction
  intro s nbits w i h
  obtain ⟨tail, hd⟩ := decode_of_decodeTableWord h
  rw [step_present (State.withFetchWord_port s nbits w), fetch_of_decode hd]
  rfl

/-- Settles O16: VLI.ENC performs its VALUE alone. -/
theorem encoderIgnoresAvailField : Obligations.EncoderIgnoresAvailField := by
  unfold Obligations.EncoderIgnoresAvailField
  intro w w' s hop hop' hvalue
  have hoperand : cmdOperand w = cmdOperand w' := hvalue
  rw [decodeCmd_of_op_zero hop, decodeCmd_of_op_zero hop', exec_vliEnc, exec_vliEnc, hoperand]

/-! ### Result words: O22, O23, O46 -/

/-- A result is an error or a success of some width; STATUS, LEN and DATA go together as R66, R67 and R163 say. -/
theorem status_len_data_of_result {r : ResWord} (h : (∃ e, r = raise e) ∨ ∃ w x, r = success w x) :
    r.status ≠ 0b11#2 ∧ (r.len = 0#4 ↔ r.status ≠ 0b00#2) ∧ (r.status ≠ 0b00#2 → r.data = 0#64) ∧
    (r.status = 0b00#2 → r.len = 1#4 ∨ r.len = 2#4 ∨ r.len = 4#4 ∨ r.len = 8#4) := by
  obtain ⟨e, rfl⟩ | ⟨w, x, rfl⟩ := h
  · have hcode : e.code ≠ 0b11#2 ∧ e.code ≠ 0b00#2 := by cases e <;> decide
    obtain ⟨hreserved, hok⟩ := hcode
    exact ⟨hreserved, iff_of_true rfl hok, fun _ => rfl, fun h0 => absurd h0 hok⟩
  · have hlen : lenField w ≠ 0#4 ∧
        (lenField w = 1#4 ∨ lenField w = 2#4 ∨ lenField w = 4#4 ∨ lenField w = 8#4) := by cases w <;> decide
    obtain ⟨hpos, hcases⟩ := hlen
    rw [success_status, success_len]
    exact ⟨by decide, iff_of_false hpos fun hne => hne rfl, fun hne => absurd rfl hne, fun _ => hcases⟩

/-- Settles O22: each unit leaves its own error or a success. -/
theorem statusAndLengthOfResults : Obligations.StatusAndLengthOfResults := by
  unfold Obligations.StatusAndLengthOfResults
  refine ⟨fun value => ?_, fun win avail => ?_, fun r hr => status_len_data_of_result ?_⟩
  · obtain ⟨-, h⟩ | ⟨w, -, -, h⟩ := encodeResult_cases value <;> rw [h]
    · exact .inr rfl
    · exact .inl rfl
  · obtain ⟨-, h⟩ | ⟨-, h⟩ := decodeResult_cases win avail <;> rw [h]
    · exact .inr rfl
    · exact .inl rfl
  · obtain ⟨value, rfl⟩ | ⟨win, avail, rfl⟩ := hr
    · exact (encodeResult_cases value).imp (fun ⟨_, h⟩ => ⟨_, h⟩) fun ⟨w, _, _, h⟩ => ⟨w, _, h⟩
    · exact (decodeResult_cases win avail).imp (fun ⟨_, h⟩ => ⟨_, h⟩) fun ⟨_, h⟩ => ⟨_, _, h⟩

/-- Settles O23: the word is STATUS above LEN above DATA, and each range lies within one of them. -/
theorem resultWordLayout : Obligations.ResultWordLayout := by
  unfold Obligations.ResultWordLayout
  intro r
  have hbits : r.bits = (r.status ++ r.len ++ r.data : BitVec (2 + 4 + 64)) := rfl
  rw [hbits]
  refine ⟨?_, ?_, BitVec.extractLsb'_append_eq_right⟩
  · rw [BitVec.extractLsb'_append_eq_of_le (by decide)]
    exact BitVec.extractLsb'_append_eq_left
  · rw [BitVec.extractLsb'_append_eq_of_le (by decide)]
    exact BitVec.extractLsb'_append_eq_right

theorem payloadBits_le (w : Width) : w.payloadBits ≤ 62 := by cases w <;> decide

/-- What is left once the tag is cleared is a payload of the width (R134, R142). -/
theorem toNat_clearTag_lt (w : Width) (W : Word) : (clearTag w W).toNat < 2 ^ w.payloadBits := by
  rw [toNat_clearTag]
  exact Nat.mod_lt _ (Nat.two_pow_pos _)

/-- The two bits where an 8-byte form has its tag are clear, whatever the width (R68). -/
theorem extractLsb'_clearTag (w : Width) (W : Word) : (clearTag w W).extractLsb' 62 2 = 0b00#2 := by
  have hle := payloadBits_le w
  apply BitVec.eq_of_getLsbD_eq
  intro i hi
  rw [BitVec.getLsbD_extractLsb', getLsbD_of_payloadBits_le (toNat_clearTag_lt w W) (by omega), Bool.and_false,
    BitVec.getLsbD_zero]

/-- Settles O46: a success has its tag bits cleared, so DATA is a payload of the window's width. -/
theorem decodedValueIsInRange : Obligations.DecodedValueIsInRange := by
  unfold Obligations.DecodedValueIsInRange
  intro win avail hok
  obtain ⟨-, h⟩ | ⟨-, h⟩ := decodeResult_cases win avail <;> rw [h] at hok ⊢
  · cases hok
  · have hlt := toNat_clearTag_lt (windowWidth win) (joinLanes (windowWidth win) win)
    have hpow := Nat.pow_le_pow_right two_pos (payloadBits_le (windowWidth win))
    rw [success_data, success_len, toNat_lenField, ← Width.payloadBits]
    exact ⟨by omega, by omega, extractLsb'_clearTag _ _⟩

/-! ### What the assembler emits: O24, O26 -/

theorem assemble_enc (value : Nat) : assemble (.enc value) =
    if value < 2 ^ 64 then some (cmdWord 0#1 0#4 (BitVec.ofNat 64 value)) else none := by
  simp only [assemble, AsmStmt.wf, decide_eq_true_eq]

theorem assemble_dec (avail win : Nat) : assemble (.dec avail win) =
    if avail < 2 ^ 4 ∧ win < 2 ^ 64 then
      some (cmdWord 1#1 (BitVec.ofNat 4 avail) (BitVec.ofNat 64 win)) else none := by
  simp only [assemble, AsmStmt.wf, Bool.and_eq_true, decide_eq_true_eq]

theorem assemble_decb (bytes : List Nat) : assemble (.decb bytes) =
    if bytes.length ≤ 8 ∧ ∀ b ∈ bytes, b < 256 then
      some (cmdWord 1#1 (BitVec.ofNat 4 bytes.length) (decbWindow (bytes.map (BitVec.ofNat 8)))) else none := by
  simp only [assemble, AsmStmt.wf, Bool.and_eq_true, decide_eq_true_eq, List.all_eq_true, decbAvail, List.length_map]

/-- Settles O24: what the two statements assemble to, AVAIL below 16 being AVAIL at most 15. -/
theorem assemblerEncodesOrRefuses : Obligations.AssemblerEncodesOrRefuses := by
  unfold Obligations.AssemblerEncodesOrRefuses
  refine ⟨assemble_enc, fun avail win => ?_⟩
  simp only [← Nat.lt_succ_iff (n := 15)]
  exact assemble_dec avail win

/-- The assembler emits VLI.ENC words with the ignored field 0, and VLI.DEC words (R64, R80-R82). -/
theorem cmdWord_of_assemble {a : AsmStmt} {w : CmdWord} (h : assemble a = some w) :
    (∃ value, w = cmdWord 0#1 0#4 value) ∨ ∃ avail win, w = cmdWord 1#1 avail win := by
  cases a with
  | enc value =>
    rw [assemble_enc, Option.ite_none_right_eq_some] at h
    obtain ⟨-, ⟨⟩⟩ := h
    exact .inl ⟨_, rfl⟩
  | dec avail win =>
    rw [assemble_dec, Option.ite_none_right_eq_some] at h
    obtain ⟨-, ⟨⟩⟩ := h
    exact .inr ⟨_, _, rfl⟩
  | decb bytes =>
    rw [assemble_decb, Option.ite_none_right_eq_some] at h
    obtain ⟨-, ⟨⟩⟩ := h
    exact .inr ⟨_, _, rfl⟩

/-- Settles O26: the words emitted are of two kinds, and each assemblable command has a statement of its operands. -/
theorem assemblerEmitsAssemblableCommands : Obligations.AssemblerEmitsAssemblableCommands := by
  unfold Obligations.AssemblerEmitsAssemblableCommands
  constructor
  · intro a w h
    obtain ⟨value, rfl⟩ | ⟨avail, win, rfl⟩ := cmdWord_of_assemble h
    · rw [decodeCmd_cmdWord_zero]; rfl
    · rw [decodeCmd_cmdWord_one]; rfl
  · intro i hi
    cases i with
    | vliEnc ign value =>
      obtain rfl : ign = 0#4 := of_decide_eq_true hi
      refine ⟨.enc value.toNat, _, (assemble_enc _).trans (if_pos value.isLt), ?_⟩
      rw [decodeCmd_cmdWord_zero, BitVec.ofNat_toNat, BitVec.setWidth_eq]
    | vliDec avail win =>
      refine ⟨.dec avail.toNat win.toNat, _, (assemble_dec _ _).trans (if_pos ⟨avail.isLt, win.isLt⟩), ?_⟩
      rw [decodeCmd_cmdWord_one, BitVec.ofNat_toNat, BitVec.ofNat_toNat, BitVec.setWidth_eq, BitVec.setWidth_eq]
    | vli1 v | vli2 v | vli4 v | vli8 v => cases hi

/-! ### VLI.DECB's window as a number: O25 -/

/-- The window of VLI.DECB's bytes as R82 writes it: byte `j` shifted to the bits of lane `j`. -/
def decbNumber (bytes : List Nat) : Nat :=
  (List.range bytes.length).foldl (fun x j => x ||| bytes.getD j 0 <<< (56 - 8 * j)) 0

theorem testBit_foldl_or (g : Nat → Nat) (l : List Nat) (a i : Nat) :
    (l.foldl (fun x j => x ||| g j) a).testBit i = (a.testBit i || l.any fun j => (g j).testBit i) := by
  induction l generalizing a with
  | nil => rw [List.foldl_nil, List.any_nil, Bool.or_false]
  | cons j l ih => rw [List.foldl_cons, ih, Nat.testBit_or, List.any_cons, Bool.or_assoc]

/-- A byte shifted to lane `j` has its bits there and no others (R9, R82). -/
theorem testBit_shiftLeft_lane {b j : Nat} (hb : b < 256) (hj : j < 8) (i : Nat) :
    (b <<< (56 - 8 * j)).testBit i = true ↔ (i < 64 ∧ j = 7 - i / 8) ∧ b.testBit (i % 8) = true := by
  rw [Nat.testBit_shiftLeft, Bool.and_eq_true, decide_eq_true_eq]
  by_cases hlane : 56 - 8 * j ≤ i ∧ i < 64 - 8 * j
  · rw [show i - (56 - 8 * j) = i % 8 by omega]
    exact and_congr_left' (iff_of_true hlane.1 (by omega))
  · refine iff_of_false (fun ⟨hge, hbit⟩ => ?_) (fun ⟨hat, _⟩ => hlane (by omega))
    have hhigh : 2 ^ 8 ≤ 2 ^ (i - (56 - 8 * j)) := Nat.pow_le_pow_right (by decide) (by omega)
    rw [Nat.testBit_lt_two_pow (by omega)] at hbit
    contradiction

/-- Bit `i` of the number is bit `i mod 8` of the byte whose lane holds it. -/
theorem testBit_decbNumber {bytes : List Nat} (hlen : bytes.length ≤ 8) (hb : ∀ b ∈ bytes, b < 256) (i : Nat) :
    (decbNumber bytes).testBit i = (decide (i < 64) && (bytes.getD (7 - i / 8) 0).testBit (i % 8)) := by
  have hbyte : ∀ j < bytes.length, bytes.getD j 0 < 256 := fun j hj => by
    rw [List.getD_eq_getElem _ _ hj]; exact hb _ (List.getElem_mem hj)
  rw [decbNumber, testBit_foldl_or, Nat.zero_testBit, Bool.false_or, Bool.eq_iff_iff, List.any_eq_true,
    Bool.and_eq_true, decide_eq_true_eq]
  constructor
  · rintro ⟨j, hj, hbit⟩
    have hj' := List.mem_range.1 hj
    obtain ⟨⟨hi, rfl⟩, hbit⟩ := (testBit_shiftLeft_lane (hbyte j hj') (by omega) i).1 hbit
    exact ⟨hi, hbit⟩
  · rintro ⟨hi, hbit⟩
    have hj : 7 - i / 8 < bytes.length := by
      by_contra hge
      rw [List.getD_eq_default _ _ (by omega), Nat.zero_testBit] at hbit
      contradiction
    have hlane := testBit_shiftLeft_lane (hbyte _ hj) (show 7 - i / 8 < 8 by omega) i
    exact ⟨7 - i / 8, List.mem_range.2 hj, hlane.2 ⟨⟨hi, rfl⟩, hbit⟩⟩

theorem decbNumber_lt {bytes : List Nat} (hlen : bytes.length ≤ 8) (hb : ∀ b ∈ bytes, b < 256) :
    decbNumber bytes < 2 ^ 64 :=
  Nat.lt_pow_two_of_testBit _ fun i hi => by rw [testBit_decbNumber hlen hb, decide_eq_false (by omega), Bool.false_and]

/-- The window loaded from the bytes is the number their shifts make (R82). -/
theorem decbWindow_eq_ofNat {bytes : List Nat} (hlen : bytes.length ≤ 8) (hb : ∀ b ∈ bytes, b < 256) :
    decbWindow (bytes.map (BitVec.ofNat 8)) = BitVec.ofNat 64 (decbNumber bytes) := by
  apply BitVec.eq_of_getLsbD_eq
  intro i hi
  have hbyte : (bytes.map (BitVec.ofNat 8)).getD (7 - i / 8) 0#8 = BitVec.ofNat 8 (bytes.getD (7 - i / 8) 0) :=
    List.getD_map _ 0 (BitVec.ofNat 8)
  rw [decbWindow, windowOf, getLsbD_packLanes _ i hi, hbyte, BitVec.getLsbD_ofNat, BitVec.getLsbD_ofNat,
    testBit_decbNumber hlen hb, decide_eq_true hi, decide_eq_true (Nat.mod_lt i (by decide)), Bool.true_and,
    Bool.true_and]

/-- Settles O25: the two statements have the same AVAIL, and the window of the bytes is the number. -/
theorem decbExpandsToVliDec : Obligations.DecbExpandsToVliDec := by
  unfold Obligations.DecbExpandsToVliDec
  intro bytes hlen hb
  calc assemble (.decb bytes)
    _ = some (cmdWord 1#1 (BitVec.ofNat 4 bytes.length) (BitVec.ofNat 64 (decbNumber bytes))) := by
      rw [assemble_decb, if_pos ⟨hlen, hb⟩, decbWindow_eq_ofNat hlen hb]
    _ = assemble (.dec bytes.length (decbNumber bytes)) := by
      rw [assemble_dec, if_pos ⟨by omega, decbNumber_lt hlen hb⟩]

end Sys2Proof.Machine

/-! # The family of 40_encode.md: VLI.ENC, its four output forms, and its sub-units -/

namespace Sys2Proof.Machine

/-! ### The tag packer and the writer: O35, O36 -/

/-- The packed word as a number: no bit of the shifted tag is lost (R104). -/
theorem toNat_packTag (w : Width) (value : Word) :
    (packTag w value).toNat = w.tag.toNat <<< w.payloadBits ||| value.toNat := by
  have htag : (w.tag.setWidth 64 <<< w.payloadBits).toNat = w.tag.toNat <<< w.payloadBits := by cases w <;> rfl
  rw [packTag, BitVec.toNat_or, htag]

/-- For a value of the width the packer's OR is a sum (R104). -/
theorem toNat_packTag_eq_add {w : Width} {value : Word} (hv : value.toNat < 2 ^ w.payloadBits) :
    (packTag w value).toNat = w.tag.toNat * 2 ^ w.payloadBits + value.toNat := by
  rw [toNat_packTag, ← Nat.shiftLeft_add_eq_or_of_lt hv, Nat.shiftLeft_eq]

/-- The packed word is an 8w-bit word (R104). -/
theorem toNat_packTag_lt {w : Width} {value : Word} (hv : value.toNat < 2 ^ w.payloadBits) :
    (packTag w value).toNat < 2 ^ (8 * w.bytes) :=
  Nat.lt_pow_two_of_testBit _ fun _ => getLsbD_packTag_of_ge hv

/-- Settles O35: the value lies below the tag, so their OR is their sum, and no bit stands above the tag. -/
theorem tagPackerIsExact : Obligations.TagPackerIsExact := by
  unfold Obligations.TagPackerIsExact
  exact fun w value hv => ⟨toNat_packTag_eq_add hv, toNat_packTag_lt hv⟩

theorem memRead_writeLanes_of_lt {w : Width} (W : Word) {k : LaneIx} (h : k.val < w.bytes) :
    memRead (writeLanes w W) k = W.extractLsb' (8 * w.bytes - 8 - 8 * k.val) 8 := by
  rw [memRead_writeLanes, if_pos h, wordByte]

/-- Settles O36: the writer left-justifies its word, and each lane is the word's byte or zero. -/
theorem writerEmitsBigEndianLanes : Obligations.WriterEmitsBigEndianLanes := by
  unfold Obligations.WriterEmitsBigEndianLanes
  refine fun w W _ => ⟨writeLanes_eq_shift w W, fun k => ⟨memRead_writeLanes_of_lt W, fun hk => ?_⟩⟩
  rw [memRead_writeLanes, if_neg (by omega)]

/-! ### The width selector: O34 -/

/-- Of a value below `2^(k+n)` the bits from `k` on are zero exactly when it is below `2^k`. -/
theorem extractLsb'_eq_zero_iff_lt {value : Word} {k n : Nat} (h : value.toNat < 2 ^ (k + n)) :
    value.extractLsb' k n = 0#n ↔ value.toNat < 2 ^ k := by
  have hhigh : value.toNat / 2 ^ k < 2 ^ n := Nat.div_lt_of_lt_mul (by rwa [← Nat.pow_add])
  rw [← BitVec.toNat_inj, BitVec.extractLsb'_toNat, BitVec.toNat_zero, Nat.shiftRight_eq_div_pow,
    Nat.mod_eq_of_lt hhigh, Nat.div_eq_zero_iff_lt (Nat.two_pow_pos k)]

/-- Settles O34: once the larger widths are ruled out, each bit test is the comparison with the bound of the next
smaller width. -/
theorem bitTestFormSelectsSameWidth : Obligations.BitTestFormSelectsSameWidth := by
  unfold Obligations.BitTestFormSelectsSameWidth
  intro value hmax
  have h30 : value.extractLsb' 30 32 = 0#32 ↔ value.toNat < 2 ^ 30 := extractLsb'_eq_zero_iff_lt (by omega)
  rw [selectWidth_eq_some_iff, selectWidthBits]
  split
  next hne => exact ⟨not_lt.1 (mt h30.2 hne), hmax⟩
  next heq =>
    have hlt30 := h30.1 (not_not.1 heq)
    have h14 : value.extractLsb' 14 16 = 0#16 ↔ value.toNat < 2 ^ 14 := extractLsb'_eq_zero_iff_lt hlt30
    split
    next hne => exact ⟨not_lt.1 (mt h14.2 hne), (le_maxValue_iff .w4 _).2 hlt30⟩
    next heq =>
      have hlt14 := h14.1 (not_not.1 heq)
      have h6 : value.extractLsb' 6 8 = 0#8 ↔ value.toNat < 2 ^ 6 := extractLsb'_eq_zero_iff_lt hlt14
      split
      next hne => exact ⟨not_lt.1 (mt h6.2 hne), (le_maxValue_iff .w2 _).2 hlt14⟩
      next heq => exact ⟨Nat.zero_le _, (le_maxValue_iff .w1 _).2 (h6.1 (not_not.1 heq))⟩

/-! ### VLI.ENC and its pseudocode: O27 -/

theorem Width.maxValue_le (w : Width) : w.maxValue ≤ 2 ^ 62 - 1 := by cases w <;> decide

theorem Width.log2_bytes (w : Width) : Nat.log2 w.bytes = w.tag.toNat := by
  rw [Width.bytes_eq_two_pow_tag, Nat.log2_two_pow]

/-- The comparisons of R102 find the number of bytes of the minimal width. -/
theorem ite_le_bounds_eq_bytes {w : Width} {n : Nat} (hmin : minimalFrom w ≤ n) (hmax : n ≤ w.maxValue) :
    (if n ≤ 63 then 1 else if n ≤ 16383 then 2 else if n ≤ 1073741823 then 4 else 8) = w.bytes := by
  cases w with
  | w1 => exact if_pos hmax
  | w2 =>
    have hmin : 64 ≤ n := hmin
    have hmax : n ≤ 16383 := hmax
    rw [if_neg (by omega), if_pos hmax, Width.bytes]
  | w4 =>
    have hmin : 16384 ≤ n := hmin
    have hmax : n ≤ 1073741823 := hmax
    rw [if_neg (by omega), if_neg (by omega), if_pos hmax, Width.bytes]
  | w8 =>
    have hmin : 1073741824 ≤ n := hmin
    rw [if_neg (by omega), if_neg (by omega), if_neg (by omega), Width.bytes]

/-- DATA of a success in exact natural arithmetic, `W << (64 - 8w)` (R104-R106). -/
theorem writeLanes_packTag_eq_ofNat (w : Width) (value : Word) : writeLanes w (packTag w value) =
    BitVec.ofNat 64 ((Nat.log2 w.bytes <<< (8 * w.bytes - 2) ||| value.toNat) <<< (64 - 8 * w.bytes)) := by
  apply BitVec.eq_of_toNat_eq
  rw [writeLanes_eq_shift, BitVec.toNat_shiftLeft, BitVec.toNat_ofNat, toNat_packTag, Width.log2_bytes,
    Width.payloadBits]

/-- Settles O27: above the largest value the range check answers; in range the comparisons find the width, and DATA is
the packed word left-justified. -/
theorem vliEncIsItsPseudocode : Obligations.VliEncIsItsPseudocode := by
  unfold Obligations.VliEncIsItsPseudocode
  intro ign value s res
  have hres : encodeResult value = res := by
    obtain ⟨hgt, henc⟩ | ⟨w, hmin, hmax, henc⟩ := encodeResult_cases value
    · exact henc.trans (if_pos hgt).symm
    · have hle : ¬ 2 ^ 62 - 1 < value.toNat := not_lt.2 (hmax.trans (Width.maxValue_le w))
      simp only [res, if_neg hle, ite_le_bounds_eq_bytes hmin hmax]
      rw [henc, writeLanes_packTag_eq_ofNat]
      rfl
  rw [exec_vliEnc, hres, State.writeEnc]

/-! ### The four output forms: O29, O30, O31, O32 -/

/-- Below the tag the packed word has the value's bits (R104). -/
theorem extractLsb'_packTag {w : Width} {value : Word} (hv : value.toNat < 2 ^ w.payloadBits) {k n : Nat}
    (h : k + n ≤ w.payloadBits) : (packTag w value).extractLsb' k n = value.extractLsb' k n := by
  have hp := payloadBits_le w
  apply BitVec.eq_of_getLsbD_eq
  intro i hi
  rw [BitVec.getLsbD_extractLsb', BitVec.getLsbD_extractLsb', getLsbD_packTag hv _ (by omega), if_pos (by omega)]

/-- Lane 0 of a form is the tag and the value's top six payload bits (R70-R73). -/
theorem memRead_written_zero {w : Width} {value : Word} (hv : value.toNat < 2 ^ w.payloadBits) :
    memRead (writeLanes w (packTag w value)) 0 = w.tag ++ value.extractLsb' (8 * w.bytes - 8) 6 := by
  have hp := payloadBits_add_two w
  have hb := w.bytes_pos
  have hpayload : (memRead (writeLanes w (packTag w value)) 0).setWidth 6 = value.extractLsb' (8 * w.bytes - 8) 6 := by
    rw [memRead_writeLanes_of_lt _ hb, BitVec.setWidth_extractLsb'_of_le (by decide)]
    exact extractLsb'_packTag hv (by omega)
  rw [← tagOf_append_payload (memRead _ 0), tagOf_writeLanes_packTag hv, hpayload]

/-- The later lanes of a form are the value's lower bytes (R70-R73). -/
theorem memRead_written_of_pos {w : Width} {value : Word} (hv : value.toNat < 2 ^ w.payloadBits) {k : LaneIx}
    (hpos : 1 ≤ k.val) (hk : k.val < w.bytes) :
    memRead (writeLanes w (packTag w value)) k = value.extractLsb' (8 * w.bytes - 8 - 8 * k.val) 8 := by
  have hp := payloadBits_add_two w
  rw [memRead_writeLanes_of_lt _ hk, extractLsb'_packTag hv (by omega)]

/-- VLI.ENC of a value whose minimal width is `w`, by the DATA written for it: the next state, and the lanes of DATA
(R107-R110). -/
theorem exec_vliEnc_form {w : Width} {value data : Word} (hmin : minimalFrom w ≤ value.toNat)
    (hmax : value.toNat ≤ w.maxValue) (hdata : writeLanes w (packTag w value) = data) (ign : BitVec 4) (s : State) :
    exec (.vliEnc ign value) s =
      .next { s with encRes := some { status := 0b00#2, len := lenField w, data := data } } ∧
    memRead data 0 = w.tag ++ value.extractLsb' (8 * w.bytes - 8) 6 ∧
    ∀ k : LaneIx, 1 ≤ k.val → k.val < w.bytes → memRead data k = value.extractLsb' (8 * w.bytes - 8 - 8 * k.val) 8 := by
  have hv := (le_maxValue_iff w _).1 hmax
  rw [exec_vliEnc, encodeResult_of_range hmin hmax, ← hdata]
  exact ⟨rfl, memRead_written_zero hv, fun _ => memRead_written_of_pos hv⟩

/-- A first byte as R108-R110 write it: the tag's bits ORed with the six payload bits. -/
theorem tag_append_eq_or (t : BitVec 2) (p : BitVec 6) : t ++ p = t.setWidth 8 <<< 6 ||| p.setWidth 8 := by
  rw [← BitVec.setWidth_append_eq_shiftLeft_setWidth_or]
  exact (BitVec.setWidth_eq _).symm

/-- Settles O29: the tag 00 adds no bit, so lane 0 is the value itself. -/
theorem encodeToVli1 : Obligations.EncodeToVli1 := by
  unfold Obligations.EncodeToVli1
  intro ign value s hmax
  have hpack : packTag .w1 value = value := BitVec.zero_or
  have hshift : writeLanes .w1 value = value <<< 56 := writeLanes_eq_shift .w1 value
  have hdata : writeLanes .w1 (packTag .w1 value) = value <<< 56 := by rw [hpack, hshift]
  have hlane : memRead (value <<< 56) 0 = value.setWidth 8 := by
    rw [← hshift, memRead_writeLanes_of_lt value Width.w1.bytes_pos, BitVec.setWidth_eq_extractLsb' (by decide)]
    rfl
  obtain ⟨hexec, h0, -⟩ := exec_vliEnc_form (w := .w1) (Nat.zero_le _) hmax hdata ign s
  exact ⟨hexec, hlane, h0⟩

/-- Settles O30: the form of width 2. -/
theorem encodeToVli2 : Obligations.EncodeToVli2 := by
  unfold Obligations.EncodeToVli2
  intro ign value s hmin hmax
  obtain ⟨hexec, h0, hk⟩ := exec_vliEnc_form (w := .w2) hmin hmax (writeLanes_eq_shift _ _) ign s
  exact ⟨hexec, h0.trans (tag_append_eq_or _ _), hk 1 (by decide) (by decide)⟩

/-- Settles O31: the form of width 4. -/
theorem encodeToVli4 : Obligations.EncodeToVli4 := by
  unfold Obligations.EncodeToVli4
  intro ign value s hmin hmax
  obtain ⟨hexec, h0, hk⟩ := exec_vliEnc_form (w := .w4) hmin hmax (writeLanes_eq_shift _ _) ign s
  exact ⟨hexec, h0.trans (tag_append_eq_or _ _), hk 1 (by decide) (by decide), hk 2 (by decide) (by decide),
    hk 3 (by decide) (by decide)⟩

/-- Settles O32: the form of width 8 fills every lane, so its packed word is not shifted. -/
theorem encodeToVli8 : Obligations.EncodeToVli8 := by
  unfold Obligations.EncodeToVli8
  intro ign value s hmin hmax
  have hdata : writeLanes .w8 (packTag .w8 value) = packTag .w8 value :=
    (writeLanes_eq_shift _ _).trans (BitVec.shiftLeft_zero _)
  obtain ⟨hexec, h0, hk⟩ := exec_vliEnc_form (w := .w8) hmin hmax hdata ign s
  exact ⟨hexec, h0.trans (tag_append_eq_or _ _), fun k hpos => hk k hpos k.isLt⟩

/-! ### The minimal wire form: O33 -/

theorem mem_widths_iff (n : Nat) : n ∈ [1, 2, 4, 8] ↔ ∃ w : Width, w.bytes = n := by
  constructor
  · simp only [List.mem_cons, List.not_mem_nil, or_false]
    rintro (rfl | rfl | rfl | rfl)
    exacts [⟨.w1, rfl⟩, ⟨.w2, rfl⟩, ⟨.w4, rfl⟩, ⟨.w8, rfl⟩]
  · rintro ⟨w, rfl⟩
    cases w <;> decide

/-- A width of fewer bytes ends below the least value whose minimal width is `w` (R102). -/
theorem bytes_le_of_minimalFrom_le {w w' : Width} {n : Nat} (hmin : minimalFrom w ≤ n) (hmax : n ≤ w'.maxValue) :
    w.bytes ≤ w'.bytes := by
  have hgap : w'.bytes < w.bytes → w'.maxValue < minimalFrom w := by cases w <;> cases w' <;> decide
  by_contra hlt
  have := hgap (not_le.1 hlt)
  omega

/-- The wire form of a width with the value for its operand (R70-R73). -/
def wireForm : Width → Word → Instr
  | .w1, value => .vli1 (value.setWidth 6)
  | .w2, value => .vli2 (value.setWidth 14)
  | .w4, value => .vli4 (value.setWidth 30)
  | .w8, value => .vli8 (value.setWidth 62)

/-- The lanes written for a value are the encoding of its wire form (R70-R73). -/
theorem encode_wireForm {w : Width} {value : Word} (hv : value.toNat < 2 ^ w.payloadBits) :
    encode (wireForm w value) = .wire ((formLanes w).map (memRead (writeLanes w (packTag w value)))) := by
  have h0 := memRead_written_zero hv
  have hk := fun k : LaneIx => memRead_written_of_pos (k := k) hv
  cases w with
  | w1 =>
    rw [formLanes, List.map_singleton, h0, wireForm, BitVec.setWidth_eq_extractLsb' (by decide)]
    rfl
  | w2 | w4 | w8 =>
    simp (disch := decide) only [formLanes, List.map, h0, hk, wireForm, encode, wireBytes2, wireBytes4, wireBytes8,
      BitVec.extractLsb'_setWidth_of_le]
    rfl

/-- The operand of a value's wire form is the value (R111). -/
theorem wireForm_operand {w : Width} {value : Word} (hv : value.toNat < 2 ^ w.payloadBits) :
    (∃ v, wireForm w value = .vli1 v ∧ v.setWidth 64 = value) ∨
    (∃ v, wireForm w value = .vli2 v ∧ v.setWidth 64 = value) ∨
    (∃ v, wireForm w value = .vli4 v ∧ v.setWidth 64 = value) ∨
    ∃ v, wireForm w value = .vli8 v ∧ v.setWidth 64 = value := by
  have hback : (value.setWidth w.payloadBits).setWidth 64 = value := by
    apply BitVec.eq_of_toNat_eq
    rw [BitVec.toNat_setWidth, BitVec.toNat_setWidth, Nat.mod_eq_of_lt hv, Nat.mod_eq_of_lt value.isLt]
  cases w with
  | w1 => exact .inl ⟨_, rfl, hback⟩
  | w2 => exact .inr (.inl ⟨_, rfl, hback⟩)
  | w4 => exact .inr (.inr (.inl ⟨_, rfl, hback⟩))
  | w8 => exact .inr (.inr (.inr ⟨_, rfl, hback⟩))

/-- The bytes a host takes from a success are the lanes of its form (R41). -/
theorem resultBytes_success (w : Width) (data : Word) :
    resultBytes (success w data) = (formLanes w).map (memRead data) :=
  appendResult_success [] w data

/-- Settles O33: the selector's width is the least that holds the value, and the lanes written are the encoding of the
value's wire form. -/
theorem encoderWidthIsMinimal : Obligations.EncoderWidthIsMinimal := by
  unfold Obligations.EncoderWidthIsMinimal
  intro value hok
  obtain ⟨-, henc⟩ | ⟨w, hmin, hmax, henc⟩ := encodeResult_cases value
  · rw [henc] at hok; cases hok
  · have hv := (le_maxValue_iff w _).1 hmax
    rw [henc, success_len, toNat_lenField, resultBytes_success]
    refine ⟨⟨w.bytes, (mem_widths_iff _).2 ⟨w, rfl⟩, rfl, Width.maxValue_eq w ▸ hmax, fun n hn hle => ?_⟩,
      wireForm w value, encode_wireForm hv, wireForm_operand hv⟩
    obtain ⟨w', rfl⟩ := (mem_widths_iff n).1 hn
    exact bytes_le_of_minimalFrom_le hmin (Width.maxValue_eq w' ▸ hle)

end Sys2Proof.Machine

/-! # The family of 41_decode.md: VLI.DEC, its four input forms, the canonicality check and the round trip -/

namespace Sys2Proof.Machine

/-! ### The round trip: O48 -/

/-- VLI.DEC of the LEN and DATA that VLI.ENC leaves for a value in range gives the value and that LEN back (R141). -/
theorem decodeResult_encodeResult {v : Word} (hv : v.toNat ≤ Config.maxValue) :
    ∃ w, (encodeResult v).status = 0b00#2 ∧ (encodeResult v).len = lenField w ∧
      decodeResult (encodeResult v).data (encodeResult v).len = success w v := by
  obtain ⟨hgt, -⟩ | ⟨w, -, hmax, henc⟩ := encodeResult_cases v
  · exact absurd hv (not_le.2 hgt)
  · rw [henc]
    exact ⟨w, rfl, rfl, decodeResult_of_written ((le_maxValue_iff w _).1 hmax) (toNat_lenField w).ge fun _ _ => rfl⟩

/-- Settles O48: the window is the encoder's DATA, so its lanes are those written. -/
theorem roundTripGivesValueBack : Obligations.RoundTripGivesValueBack := by
  unfold Obligations.RoundTripGivesValueBack
  intro ign v s hv
  obtain ⟨w, hok, hlen, hdec⟩ := decodeResult_encodeResult hv
  refine ⟨encodeResult v, _, _, exec_vliEnc ign v s, rfl, hok, exec_vliDec _ _ _, ?_, rfl⟩
  rw [State.writeDec_decRes, hdec, hlen]
  rfl

/-! ### Source bytes that hold no whole form: O8 -/

/-- Fewer source bytes than the first one names are a short source, whatever the host leaves past them (R131, R133). -/
theorem short_loaded {fill : Nat → Byte} {bytes : List Byte} (extra : Fin 8)
    (h : bytes.length < (windowWidth (windowOf fill bytes)).bytes) :
    Short (windowOf fill bytes) (availOf extra bytes) :=
  .inr (not_le.1 (mt (le_availOf_iff extra bytes (Width.bytes_le_eight _)).1 (not_le.2 h)))

/-- Settles O8: the bytes are performed as the loaded VLI.DEC, and its source is short. -/
theorem shortSourceGivesInsufficientData : Obligations.ShortSourceGivesInsufficientData := by
  unfold Obligations.ShortSourceGivesInsufficientData
  intro s bytes rest hp hbytes
  have hshort : bytes.length < (windowWidth (windowOf (fun _ => 0#8) bytes)).bytes := by
    obtain rfl | ⟨b0, bs, rfl, hlen⟩ := hbytes
    · exact Width.bytes_pos _
    · rw [← bytes_widthOf] at hlen
      rwa [windowWidth, memRead_windowOf]
  rw [step_present hp, exec_fetch_wire bytes (fun _ => 0#8) 0, exec_vliDec,
    decodeResult_of_short (short_loaded 0 hshort)]
  rfl

/-! ### VLI.DEC and its pseudocode: O37 -/

/-- DATA of a success in exact natural arithmetic: the window's top `8w` bits less their two tag bits (R134, R135). -/
theorem clearTag_joinLanes_eq_ofNat (w : Width) (win : Word) :
    clearTag w (joinLanes w win) = BitVec.ofNat 64 ((win.toNat >>> (64 - 8 * w.bytes)) % 2 ^ (8 * w.bytes - 2)) := by
  rw [← toNat_joinLanes, ← toNat_clearTag, BitVec.ofNat_toNat, BitVec.setWidth_eq]

/-- Settles O37: a source that is short answers in one of the two checks, and one that is not passes both. -/
theorem vliDecIsItsPseudocode : Obligations.VliDecIsItsPseudocode := by
  unfold Obligations.VliDecIsItsPseudocode
  intro avail win s w res
  have hw : w = (windowWidth win).bytes := by rw [bytes_windowWidth, ← Nat.one_shiftLeft]
  have hpos := (windowWidth win).bytes_pos
  have hres : decodeResult win avail = res := by
    obtain ⟨hs, hdec⟩ | ⟨hn, hdec⟩ := decodeResult_cases win avail
    · have hs' : avail.toNat < w := by
        obtain rfl | hlt := hs
        · exact hw ▸ hpos
        · exact hw ▸ hlt
      simp only [res, if_pos hs', ite_self]
      exact hdec
    · simp only [res, hw, if_neg (show ¬ avail.toNat = 0 by omega), if_neg (not_lt.2 hn)]
      rw [hdec, clearTag_joinLanes_eq_ofNat]
      rfl
  rw [exec_vliDec, hres, State.writeDec]

/-! ### The four input forms: O39, O40, O41, O42 -/

theorem clearTag_eq_setWidth (w : Width) (W : Word) : clearTag w W = (W.setWidth w.payloadBits).setWidth 64 := by
  apply BitVec.eq_of_getLsbD_eq
  intro i hi
  rw [getLsbD_clearTag, BitVec.getLsbD_setWidth, BitVec.getLsbD_setWidth, decide_eq_true hi, Bool.true_and]

/-- The reader's next join: the bits joined so far move up by a lane, and the lane follows them (R134). -/
def joinLane (win x : Word) (k : LaneIx) : Word := (x <<< 8) ||| (memRead win k).setWidth 64

/-- Keeping the low bits of a join is keeping eight fewer of what was joined so far. -/
theorem setWidth_joinLane (win x : Word) (k : LaneIx) (n : Nat) :
    ((joinLane win x k).setWidth (n + 8)).setWidth 64 = joinLane win ((x.setWidth n).setWidth 64) k := by
  apply BitVec.eq_of_getLsbD_eq
  intro i hi
  rw [joinLane, joinLane, getLsbD_joinNext _ _ _ hi, BitVec.getLsbD_setWidth, BitVec.getLsbD_setWidth,
    getLsbD_joinNext _ _ _ hi]
  split
  · simp [*, show i < n + 8 by omega]
  · simp [hi, show i - 8 < 64 by omega, show i < n + 8 ↔ i - 8 < n by omega]

/-- Bits cleared at the top of a join of several lanes are cleared before the lanes are joined. -/
theorem setWidth_foldl_joinLane (win : Word) (lanes : List LaneIx) (x : Word) (n : Nat) :
    ((lanes.foldl (joinLane win) x).setWidth (n + 8 * lanes.length)).setWidth 64 =
      lanes.foldl (joinLane win) ((x.setWidth n).setWidth 64) := by
  induction lanes generalizing x n with
  | nil => rfl
  | cons k lanes ih =>
    rw [List.foldl_cons, List.foldl_cons, ← setWidth_joinLane, ← ih, List.length_cons,
      show n + 8 * (lanes.length + 1) = n + 8 + 8 * lanes.length by omega]

/-- The six payload bits of a window's first byte (R69). -/
def leadBits (win : Word) : Word := ((memRead win 0).extractLsb' 0 6).setWidth 64

/-- The value read is the payload bits of the first byte, and the form's later lanes joined to them (R136-R139). -/
theorem clearTag_joinLanes (w : Width) (win : Word) :
    clearTag w (joinLanes w win) = (formLanes w).tail.foldl (joinLane win) (leadBits win) := by
  have hlead : ((joinLane win 0#64 0).setWidth 6).setWidth 64 = leadBits win := by
    rw [joinLane, BitVec.zero_shiftLeft, BitVec.zero_or, BitVec.setWidth_setWidth_of_le (k := 6) _ (by decide),
      BitVec.setWidth_eq_extractLsb' (w := 6) (by decide), leadBits]
  have hjoin : joinLanes w win = (formLanes w).tail.foldl (joinLane win) (joinLane win 0#64 0) := by cases w <;> rfl
  have hbits : w.payloadBits = 6 + 8 * (formLanes w).tail.length := by cases w <;> rfl
  rw [clearTag_eq_setWidth, hjoin, hbits, setWidth_foldl_joinLane, hlead]

/-- VLI.DEC of a window that begins with the tag of a width and holds enough source bytes, by the DATA read from it: the
next state, and the bound of DATA (R136-R139). -/
theorem exec_vliDec_form {w : Width} {win data : Word} {avail : BitVec 4}
    (htag : (memRead win 0).extractLsb' 6 2 = w.tag) (hav : w.bytes ≤ avail.toNat)
    (hdata : data = (formLanes w).tail.foldl (joinLane win) (leadBits win)) (s : State) :
    exec (.vliDec avail win) s =
      .next { s with decRes := some { status := 0b00#2, len := lenField w, data := data } } ∧
    data.toNat ≤ w.maxValue := by
  have hw : windowWidth win = w := by rw [windowWidth, widthOf, tagOf, htag, Width.ofTag_tag]
  rw [← clearTag_joinLanes] at hdata
  rw [exec_vliDec, decodeResult_of_enough (by rwa [hw]), hw, hdata]
  exact ⟨rfl, (le_maxValue_iff w _).2 (toNat_clearTag_lt w _)⟩

/-- A first byte with tag 00 is its six payload bits (R136). -/
theorem setWidth_of_tag_zero {b : Byte} (h : b.extractLsb' 6 2 = 0b00#2) :
    (b.extractLsb' 0 6).setWidth 64 = b.setWidth 64 := by
  have hb : b = 0b00#2 ++ b.extractLsb' 0 6 := by
    rw [← BitVec.setWidth_eq_extractLsb' (by decide), ← h, ← tagOf, tagOf_append_payload]
  calc (b.extractLsb' 0 6).setWidth 64
    _ = (0b00#2 ++ b.extractLsb' 0 6).setWidth 64 := by
      rw [BitVec.setWidth_append_eq_shiftLeft_setWidth_or, BitVec.setWidth_zero, BitVec.zero_shiftLeft, BitVec.zero_or]
    _ = b.setWidth 64 := by rw [← hb]

/-- Settles O39: with tag 00 the payload bits are the whole byte. -/
theorem decodeVli1 : Obligations.DecodeVli1 := by
  unfold Obligations.DecodeVli1
  intro avail win s htag hav data hdata
  obtain ⟨hexec, hmax⟩ := exec_vliDec_form (w := .w1) htag hav hdata s
  exact ⟨hexec, hdata.trans (setWidth_of_tag_zero htag), hmax⟩

/-- Settles O40: the form of width 2. -/
theorem decodeVli2 : Obligations.DecodeVli2 := by
  unfold Obligations.DecodeVli2
  intro avail win s htag hav data hdata
  exact exec_vliDec_form (w := .w2) htag hav hdata s

/-- Settles O41: the form of width 4. -/
theorem decodeVli4 : Obligations.DecodeVli4 := by
  unfold Obligations.DecodeVli4
  intro avail win s htag hav data hdata
  refine exec_vliDec_form (w := .w4) htag hav (hdata.trans ?_) s
  simp only [formLanes, List.tail_cons, List.foldl_cons, List.foldl_nil, joinLane, leadBits,
    BitVec.shiftLeft_or_distrib, ← BitVec.shiftLeft_add, Nat.reduceAdd]

/-- Settles O42: the form of width 8 is the whole window, less its tag. -/
theorem decodeVli8 : Obligations.DecodeVli8 := by
  unfold Obligations.DecodeVli8
  intro avail win s htag hav data hdata
  have hjoin : data = (formLanes .w8).tail.foldl (joinLane win) (leadBits win) := hdata.trans <| by
    simp only [formLanes, List.tail_cons, List.foldl_cons, List.foldl_nil, joinLane, leadBits,
      BitVec.shiftLeft_or_distrib, ← BitVec.shiftLeft_add, Nat.reduceAdd]
  have hmask : data = win &&& 0x3FFFFFFFFFFFFFFF#64 := by
    rw [hjoin, ← clearTag_joinLanes, joinLanes_eq_shift]
    rfl
  obtain ⟨hexec, hmax⟩ := exec_vliDec_form (w := .w8) htag hav hjoin s
  exact ⟨hexec, hmask, hmax⟩

/-! ### The wire forms as instructions: O43 -/

/-- The wire form of any value of a width decodes to that value, minimal for it or not (R77, R136-R139). -/
theorem exec_wireForm {w : Width} {value : Word} (hv : value.toNat < 2 ^ w.payloadBits) (s : State) :
    exec (wireForm w value) s = .next (s.writeDec (success w value)) := by
  have hle := w.bytes_le_eight
  rw [exec_of_encode_wire (encode_wireForm hv), decodeForm, decodeResult_of_written hv]
  · rw [decbAvail, List.length_map, length_formLanes, BitVec.toNat_ofNat, Nat.mod_eq_of_lt (by omega)]
  · intro k hk
    have hlane := memRead_windowOf_formLanes (fun _ => 0#8) w (writeLanes w (packTag w value)) [] hk
    rwa [List.append_nil] at hlane

/-- A row whose term is the wire form of its operand decodes to that operand (R136-R139). -/
theorem exec_row {w : Width} {n : Nat} (hn : n = w.payloadBits) {row : BitVec n → Instr}
    (hrow : ∀ value, wireForm w value = row (value.setWidth n)) (v : BitVec n) (s : State) :
    exec (row v) s = .next (s.writeDec (success w (v.setWidth 64))) := by
  have hle := payloadBits_le w
  have hv : (v.setWidth 64).toNat < 2 ^ w.payloadBits := by
    rw [BitVec.toNat_setWidth, ← hn]
    exact (Nat.mod_le _ _).trans_lt v.isLt
  have hback : (v.setWidth 64).setWidth n = v := by
    rw [BitVec.setWidth_setWidth_of_le _ (by omega), BitVec.setWidth_eq]
  rw [← exec_wireForm hv, hrow, hback]

/-- Settles O43: each row's term is the wire form of its operand. -/
theorem wireFormsDecodeToTheirValue : Obligations.WireFormsDecodeToTheirValue := by
  unfold Obligations.WireFormsDecodeToTheirValue
  exact ⟨exec_row (w := .w1) rfl fun _ => rfl, exec_row (w := .w2) rfl fun _ => rfl,
    exec_row (w := .w4) rfl fun _ => rfl, exec_row (w := .w8) rfl fun _ => rfl⟩

/-! ### The host's check for canonical input: O47 -/

/-- Clearing the tag of an 8w-bit word and packing it again gives the word back (R104, R134). -/
theorem packTag_clearTag {w : Width} {W : Word} (hW : ∀ i, 8 * w.bytes ≤ i → W.getLsbD i = false)
    (htag : W.extractLsb' w.payloadBits 2 = w.tag) : packTag w (clearTag w W) = W := by
  apply BitVec.eq_of_getLsbD_eq
  intro i hi
  rw [getLsbD_packTag (toNat_clearTag_lt w W) i hi, getLsbD_clearTag, ← htag, BitVec.getLsbD_extractLsb']
  have := payloadBits_add_two w
  split
  · simp [*]
  · by_cases h : i < 8 * w.bytes
    · simp [show i - w.payloadBits < 2 by omega, show w.payloadBits + (i - w.payloadBits) = i by omega]
    · simp [show ¬ i - w.payloadBits < 2 by omega, hW i (by omega)]

/-- The join of a form's lanes bit by bit (R45). -/
theorem getLsbD_joinLanes (w : Width) (win : Word) (i : Nat) :
    (joinLanes w win).getLsbD i = win.getLsbD (64 - 8 * w.bytes + i) := by
  rw [joinLanes_eq_shift, BitVec.getLsbD_ushiftRight]

/-- The joined lanes have the window's tag above their payload (R132, R134). -/
theorem extractLsb'_joinLanes (win : Word) :
    (joinLanes (windowWidth win) win).extractLsb' (windowWidth win).payloadBits 2 = (windowWidth win).tag := by
  have hp := payloadBits_add_two (windowWidth win)
  have hle := (windowWidth win).bytes_le_eight
  have htag : (windowWidth win).tag = (memRead win 0).extractLsb' 6 2 := tag_widthOf _
  rw [htag]
  apply BitVec.eq_of_getLsbD_eq
  intro i hi
  rw [BitVec.getLsbD_extractLsb', BitVec.getLsbD_extractLsb', getLsbD_joinLanes, getLsbD_memRead,
    decide_eq_true (show 6 + i < 8 by omega), Bool.true_and]
  congr 2
  show _ = 56 + (6 + i)
  omega

/-- Writing the joined lanes gives the form's lanes back (R105, R134). -/
theorem memRead_writeLanes_joinLanes {w : Width} (win : Word) {k : LaneIx} (h : k.val < w.bytes) :
    memRead (writeLanes w (joinLanes w win)) k = memRead win k := by
  have hle := w.bytes_le_eight
  rw [memRead_writeLanes_of_lt _ h]
  apply BitVec.eq_of_getLsbD_eq
  intro i hi
  rw [BitVec.getLsbD_extractLsb', getLsbD_joinLanes, getLsbD_memRead,
    show 64 - 8 * w.bytes + (8 * w.bytes - 8 - 8 * k.val + i) = 56 - 8 * k.val + i by omega]

/-- Encoding what a window decodes to, at the width the window names, writes the window's own lanes (R140). -/
theorem memRead_rewritten (win : Word) {k : LaneIx} (h : k.val < (windowWidth win).bytes) :
    memRead (writeLanes (windowWidth win) (packTag (windowWidth win)
      (clearTag (windowWidth win) (joinLanes (windowWidth win) win)))) k = memRead win k := by
  rw [packTag_clearTag (fun i hi => ?_) (extractLsb'_joinLanes win), memRead_writeLanes_joinLanes win h]
  have hle := (windowWidth win).bytes_le_eight
  rw [getLsbD_joinLanes, BitVec.getLsbD_of_ge _ _ (by omega)]

/-- Settles O47: the LENs agree exactly when the encoder takes the window's own width, and then it writes the window's
own lanes; at another width it writes another number of bytes. -/
theorem canonicalCheckIsExact : Obligations.CanonicalCheckIsExact := by
  unfold Obligations.CanonicalCheckIsExact
  intro win avail hok
  obtain ⟨-, hdec⟩ | ⟨-, hdec⟩ := decodeResult_cases win avail <;> rw [hdec] at hok ⊢
  · cases hok
  · have hmax := (le_maxValue_iff _ _).2 (toNat_clearTag_lt (windowWidth win) (joinLanes (windowWidth win) win))
    rw [canonicalCheck, success_data, success_len, toNat_lenField, allLanes_take, beq_iff_eq]
    obtain ⟨hgt, -⟩ | ⟨w, hmin, -, henc⟩ :=
      encodeResult_cases (clearTag (windowWidth win) (joinLanes (windowWidth win) win))
    · exact absurd (hmax.trans (Width.maxValue_le _)) (not_le.2 hgt)
    · rw [henc, success_len, toNat_lenField, resultBytes_success]
      refine ⟨rfl, bytes_le_of_minimalFrom_le hmin hmax, fun hlen => ?_, fun hbytes => ?_⟩
      · obtain rfl := lenField_injective hlen
        exact List.map_congr_left fun k hk => memRead_rewritten win ((mem_formLanes _ k).1 hk)
      · have hlen := congrArg List.length hbytes
        rw [List.length_map, List.length_map, length_formLanes, length_formLanes] at hlen
        rw [lenField, lenField, hlen]

end Sys2Proof.Machine

/-! # The family of 60_exceptions.md: the two errors, and blocks that share nothing -/

namespace Sys2Proof.Machine

/-! ### ValueTooLarge: O28 -/

/-- The encoder's error code stands for values out of range alone (R161). -/
theorem encodeResult_status_eq_one_iff (value : Word) :
    (encodeResult value).status = 0b01#2 ↔ Config.maxValue < value.toNat := by
  obtain ⟨hgt, henc⟩ | ⟨w, -, hmax, henc⟩ := encodeResult_cases value
  · rw [henc]
    exact iff_of_true rfl hgt
  · rw [henc, success_status]
    exact iff_of_false (by decide) (not_lt.2 (hmax.trans (Width.maxValue_le w)))

/-- Settles O28: the range check is the test of the two bits above the largest value, and it alone leads to
the error. -/
theorem valueTooLargeExactlyAboveMax : Obligations.ValueTooLargeExactlyAboveMax := by
  unfold Obligations.ValueTooLargeExactlyAboveMax
  refine ⟨fun ign value s hgt => ?_, fun value => ⟨?_, encodeResult_status_eq_one_iff value⟩,
    fun win avail herr => ?_⟩
  · rw [exec_vliEnc, encodeResult_of_gt hgt]
    rfl
  · have hbits : value.extractLsb' 62 2 = 0b00#2 ↔ value.toNat < 2 ^ 62 := extractLsb'_eq_zero_iff_lt value.isLt
    rw [ne_eq, hbits]
    omega
  · obtain ⟨-, hdec⟩ | ⟨-, hdec⟩ := decodeResult_cases win avail <;> rw [hdec] at herr <;> cases herr

/-! ### InsufficientData: O38 -/

/-- A source is short by the window's top two bits (R132, R162). -/
theorem short_iff (win : Word) (avail : BitVec 4) :
    Short win avail ↔ avail = 0#4 ∨ avail.toNat < 2 ^ (win.extractLsb' 62 2).toNat := by
  rw [Short, bytes_windowWidth]

/-- A short source never has the bytes of its form: the width named is at least one byte. -/
theorem not_short_of_enough {win : Word} {avail : BitVec 4} (h : (windowWidth win).bytes ≤ avail.toNat) :
    ¬ Short win avail := by
  rintro (rfl | hlt)
  · exact absurd ((windowWidth win).bytes_pos.trans_le h) (by decide)
  · exact absurd h (not_le.2 hlt)

/-- The decoder's error code stands for short sources alone (R162). -/
theorem decodeResult_status_eq_two_iff (win : Word) (avail : BitVec 4) :
    (decodeResult win avail).status = 0b10#2 ↔ Short win avail := by
  obtain ⟨hshort, hdec⟩ | ⟨henough, hdec⟩ := decodeResult_cases win avail
  · rw [hdec]
    exact iff_of_true rfl hshort
  · rw [hdec, success_status]
    exact iff_of_false (by decide) (not_short_of_enough henough)

/-- Settles O38: the two checks together say that the source is short, and they alone lead to the error. -/
theorem insufficientDataExactlyWhenShort : Obligations.InsufficientDataExactlyWhenShort := by
  unfold Obligations.InsufficientDataExactlyWhenShort
  refine ⟨fun avail win s hcause => ?_, fun avail win => ?_, fun value herr => ?_⟩
  · rw [exec_vliDec, decodeResult_of_short ((short_iff win avail).2 hcause)]
    rfl
  · rw [decodeResult_status_eq_two_iff, short_iff]
  · obtain ⟨-, henc⟩ | ⟨w, -, -, henc⟩ := encodeResult_cases value <;> rw [henc] at herr <;> cases herr

/-! ### Blocks share nothing: O57 -/

/-- A block served an input moves as its own step does, and what else is presented to it stays. -/
theorem deliver_of_step {x : Input} {s t : State} (h : step (s.withPort [x]) = .next t) :
    deliver x s = t.withPort s.port := by
  simp only [deliver, h]

/-- A turn whose host presents an input delivers it to the block it names, and to no other. -/
theorem turnStep_blocks {grant : Nat → Nat} {sys : System} {i : Nat} {x : Input} {rest : List (Nat × Input)}
    (h : sys.hosts.getD (grant sys.turn) [] = (i, x) :: rest) :
    (sys.turnStep grant).blocks = sys.blocks.modify i (deliver x) := by
  simp only [System.turnStep, h]

/-- Settles O57: a turn modifies the list of blocks at the served index, by that block's step. -/
theorem instancesShareNothing : Obligations.InstancesShareNothing := by
  unfold Obligations.InstancesShareNothing
  intro grant sys i x rest hserved
  rw [turnStep_blocks hserved]
  refine ⟨fun j hj => List.getElem?_modify_ne _ _ hj.symm, fun s hs => ?_⟩
  obtain ⟨t, hstep, -⟩ := step_answers (s.withPort [x])
  refine ⟨t, hstep, ?_⟩
  rw [List.getElem?_modify_eq, hs, Option.map_eq_map, Option.map_some, deliver_of_step hstep]

end Sys2Proof.Machine

/-! # The family of 70_reset_and_hazards.md: reset, the idle step, the host's read, and commands in flight -/

namespace Sys2Proof.Machine

/-! ### What one step at the port does -/

theorem tick_empty (latency : Nat) {p : Pipelined} (h : p.block.port = []) :
    tick latency p = advance p.block p.inflight := by
  simp only [tick, h]

theorem tick_idle (latency : Nat) {p : Pipelined} {rest : List Input} (h : p.block.port = .idle :: rest) :
    tick latency p = advance (p.block.withPort rest) p.inflight := by
  simp only [tick, h]

theorem tick_reset (latency : Nat) {p : Pipelined} {rest : List Input} (h : p.block.port = .reset :: rest) :
    tick latency p = { block := (p.block.withPort rest).assertReset, inflight := [] } := by
  simp only [tick, h]

theorem tick_present (latency : Nat) {p : Pipelined} {c : Code} {rest : List Input}
    (h : p.block.port = .present c :: rest) :
    tick latency p = advance (p.block.withPort rest) (p.inflight ++ [(latency, commandOf c)]) := by
  simp only [tick, h]

/-- What one step at the port keeps, any number of steps keep. -/
theorem ticks_keep {latency : Nat} {P : Pipelined → Prop} (hstep : ∀ p, P p → P (tick latency p)) (k : Nat)
    {p : Pipelined} (hp : P p) : P (ticks latency k p) := by
  induction k generalizing p with
  | zero => exact hp
  | succ k ih => exact ih (hstep p hp)

/-! ### The port refines the step: O54 -/

theorem exec_decodeCmd (w : CmdWord) (s : State) : exec (decodeCmd w) s = .next (atomicStep s w) := by
  unfold decodeCmd atomicStep
  split <;> rfl

/-- What a presented code makes the block perform is the command word that reaches the port for it (R24, R43). -/
theorem exec_fetch (c : Code) (s : State) : exec (fetch c) s = .next (atomicStep s (commandOf c)) := by
  rw [← exec_decodeCmd]
  cases c with
  | cmd w => rfl
  | wire bytes =>
    rw [exec_fetch_wire bytes (Config.emptyLane bytes) (Config.extraAvail bytes), commandOf, decodeCmd_cmdWord_one]
    rfl

@[simp] theorem Pipelined.drained_port (p : Pipelined) : p.drained.port = p.block.port := completeAll_port _ _

/-- The drained state moves as the step moves it, whether what is in flight is in order or not (R187). -/
theorem step_drained (latency : Nat) (p : Pipelined) : step p.drained = .next (tick latency p).drained := by
  match hp : p.block.port with
  | [] => rw [step_empty (p.drained_port.trans hp), tick_empty latency hp, advance_drained, Pipelined.drained]
  | .idle :: rest =>
    rw [step_idle (p.drained_port.trans hp), tick_idle latency hp, advance_drained, completeAll_withPort,
      Pipelined.drained]
  | .reset :: rest =>
    rw [step_reset (p.drained_port.trans hp), tick_reset latency hp]
    rfl
  | .present c :: rest =>
    rw [step_present (p.drained_port.trans hp), tick_present latency hp, advance_drained, completeAll_append,
      completeAll_withPort, exec_fetch]
    rfl

/-- In a queue in order, what is left once the commands that are due are taken off has steps to go. -/
theorem pos_of_mem_dropWhile_due {q : List (Nat × CmdWord)} (hq : (q.map Prod.fst).Pairwise (· ≤ ·))
    {e : Nat × CmdWord} (he : e ∈ q.dropWhile (fun e => e.1 == 0)) : 0 < e.1 := by
  induction q with
  | nil => cases he
  | cons d q ih =>
    obtain ⟨hd, hrest⟩ := List.pairwise_cons.1 hq
    by_cases hdue : d.1 = 0
    · rw [List.dropWhile_cons_of_pos (by simp [hdue])] at he
      exact ih hrest he
    · rw [List.dropWhile_cons_of_neg (by simp [hdue])] at he
      obtain rfl | he := List.mem_cons.1 he
      · exact Nat.pos_of_ne_zero hdue
      · exact (Nat.pos_of_ne_zero hdue).trans_le (hd _ (List.mem_map_of_mem he))

/-- One step's passing keeps a queue in order, and brings steps to go of at most LATENCY below LATENCY. -/
theorem advance_ordered {latency : Nat} (s : State) {q : List (Nat × CmdWord)}
    (hq : (q.map Prod.fst).Pairwise (· ≤ ·)) (hle : ∀ e ∈ q, e.1 ≤ latency) : (advance s q).Ordered latency := by
  have hsub : List.Sublist (q.dropWhile (fun e => e.1 == 0)) q := List.dropWhile_sublist _
  constructor
  · simp only [advance, List.map_map]
    exact List.pairwise_map.2
      ((List.pairwise_map.1 (hq.sublist (hsub.map _))).imp fun h => Nat.sub_le_sub_right h 1)
  · intro e he
    obtain ⟨e', he', rfl⟩ := List.mem_map.1 he
    have hpos := pos_of_mem_dropWhile_due hq he'
    have hmax := hle e' (hsub.subset he')
    exact Nat.sub_one_lt_of_le hpos hmax

/-- A command accepted at the end of a queue in order has the most steps to go, LATENCY. -/
theorem tick_ordered {latency : Nat} {p : Pipelined} (h : p.Ordered latency) : (tick latency p).Ordered latency := by
  obtain ⟨hq, hlt⟩ := h
  have hle : ∀ e ∈ p.inflight, e.1 ≤ latency := fun e he => (hlt e he).le
  match hp : p.block.port with
  | [] => rw [tick_empty latency hp]; exact advance_ordered _ hq hle
  | .idle :: rest => rw [tick_idle latency hp]; exact advance_ordered _ hq hle
  | .reset :: rest => rw [tick_reset latency hp]; exact ⟨List.Pairwise.nil, fun _ he => nomatch he⟩
  | .present c :: rest =>
    rw [tick_present latency hp]
    refine advance_ordered _ ?_ fun e he => ?_
    · rw [List.map_append, List.pairwise_append]
      refine ⟨hq, List.pairwise_singleton _ _, fun n hn m hm => ?_⟩
      obtain ⟨e, he, rfl⟩ := List.mem_map.1 hn
      obtain rfl := List.mem_singleton.1 hm
      exact hle e he
    · obtain he | he := List.mem_append.1 he
      · exact hle e he
      · obtain rfl := List.mem_singleton.1 he
        exact le_rfl

/-- Settles O54: a step at the port keeps the order, and completing what is in flight commutes with it. -/
theorem portRefinesAtomicStep : Obligations.PortRefinesAtomicStep := by
  unfold Obligations.PortRefinesAtomicStep
  exact fun latency p h => ⟨tick_ordered h, step_drained latency p⟩

/-! ### The host's read: O52 -/

theorem hostRead_some {r : ResWord} (h : r.status ≠ statusReserved) : hostRead (some r) = .next r := if_neg h

theorem status_ne_reserved {r : ResWord} {e : ErrorKind} (h : r = raise e ∨ r.status = statusOk) :
    r.status ≠ statusReserved := by
  obtain rfl | hok := h
  · cases e <;> decide
  · rw [hok]; decide

theorem status_ne_reserved_of_encShape {r : ResWord} (h : encShape r = true) : r.status ≠ statusReserved :=
  status_ne_reserved (((encShape_iff r).1 h).imp_right fun ⟨_, hok, _⟩ => hok)

theorem status_ne_reserved_of_decShape {r : ResWord} (h : decShape r = true) : r.status ≠ statusReserved :=
  status_ne_reserved (((decShape_iff r).1 h).imp_right fun ⟨_, hok, _⟩ => hok)

/-- No register of a state of the invariant shows the reserved STATUS (R79). -/
theorem State.Inv.status_ne_reserved {s : State} (h : s.Inv) {r : ResWord}
    (hr : some r = s.encRes ∨ some r = s.decRes) : r.status ≠ statusReserved := by
  obtain ⟨henc, hdec⟩ := h
  obtain hr | hr := hr
  · rw [← hr] at henc; exact status_ne_reserved_of_encShape henc
  · rw [← hr] at hdec; exact status_ne_reserved_of_decShape hdec

/-- Settles O52, by what the register holds: VALID = 0 is none, and a result of the invariant is readable. -/
theorem hostReadsResultOrNone : Obligations.HostReadsResultOrNone := by
  unfold Obligations.HostReadsResultOrNone
  constructor
  · rintro (_ | r) hv
    · rfl
    · cases hv
  · rintro s hs (_ | r) hr hv
    · cases hv
    · exact hostRead_some (hs.status_ne_reserved hr)

/-! ### A command alone in flight: O55 -/

/-- Where the port stands after a step whose passing begins with a command alone in flight, `n` steps to go, and `n` idle
steps presented after it. -/
def aloneInFlight (s : State) (w : CmdWord) (n : Nat) : Pipelined :=
  advance (s.withPort (List.replicate n .idle)) [(n, w)]

/-- The command is due: it completes, and nothing is left in flight. -/
theorem aloneInFlight_zero (s : State) (w : CmdWord) :
    aloneInFlight s w 0 = { block := (atomicStep s w).withPort [], inflight := [] } :=
  congrArg (Pipelined.mk · []) (atomicStep_withPort s w [])

/-- The command is not due: the registers stay, and it has one step less to go. -/
theorem aloneInFlight_succ (s : State) (w : CmdWord) (n : Nat) : aloneInFlight s w (n + 1) =
    { block := s.withPort (List.replicate (n + 1) .idle), inflight := [(n, w)] } := rfl

theorem ticks_aloneInFlight (latency : Nat) (s : State) (w : CmdWord) (n k : Nat) :
    ticks latency k (aloneInFlight s w (n + k)) = aloneInFlight s w n := by
  induction k with
  | zero => rfl
  | succ k ih =>
    have hidle : tick latency (aloneInFlight s w (n + k + 1)) = aloneInFlight s w (n + k) := by
      rw [aloneInFlight_succ, tick_idle latency (rest := List.replicate (n + k) .idle) rfl]
      rfl
    rw [ticks_succ, ← Nat.add_assoc, hidle, ih]

/-- Settles O55: accepting the command leaves it alone in flight, and each idle step brings it one step nearer. -/
theorem commandCompletesAfterLatency : Obligations.CommandCompletesAfterLatency := by
  unfold Obligations.CommandCompletesAfterLatency
  intro latency p c hempty hport
  have haccept : tick latency p = aloneInFlight p.block (commandOf c) latency := by
    rw [tick_present latency hport, hempty]
    rfl
  have hdone : ticks latency (latency + 1) p =
      { block := (atomicStep p.block (commandOf c)).withPort [], inflight := [] } := by
    have h := ticks_aloneInFlight latency p.block (commandOf c) 0 latency
    rwa [Nat.zero_add, aloneInFlight_zero, ← haccept] at h
  refine ⟨fun k hk => ?_, by rw [hdone], by rw [hdone]⟩
  cases k with
  | zero => exact ⟨rfl, rfl⟩
  | succ k =>
    obtain ⟨n, rfl⟩ : ∃ n, latency = n + 1 + k := ⟨latency - (k + 1), by omega⟩
    rw [ticks_succ, haccept, ticks_aloneInFlight, aloneInFlight_succ]
    exact ⟨rfl, rfl⟩

/-! ### Reset: O56, O2 -/

/-- Both registers are at their reset values, with nothing in flight and nothing presented. -/
def Pipelined.Quiet (p : Pipelined) : Prop :=
  p.inflight = [] ∧ p.block.encRes = none ∧ p.block.decRes = none ∧ ∀ x ∈ p.block.port, x = .idle

theorem tick_quiet {latency : Nat} {p : Pipelined} (h : p.Quiet) : (tick latency p).Quiet := by
  obtain ⟨hempty, henc, hdec, hidle⟩ := h
  match hp : p.block.port with
  | [] =>
    rw [tick_empty latency hp, hempty, advance_nil]
    exact ⟨rfl, henc, hdec, hidle⟩
  | x :: rest =>
    rw [hp] at hidle
    obtain ⟨rfl, hrest⟩ := List.forall_mem_cons.1 hidle
    rw [tick_idle latency hp, hempty, advance_nil]
    exact ⟨rfl, henc, hdec, hrest⟩

/-- Settles O56: the step in which reset is asserted leaves the port quiet, and idle steps keep it so. -/
theorem resetDiscardsInFlight : Obligations.ResetDiscardsInFlight := by
  unfold Obligations.ResetDiscardsInFlight
  intro latency p rest hport hrest k
  have hreset : (tick latency p).Quiet := by
    rw [tick_reset latency hport]
    exact ⟨rfl, rfl, rfl, hrest⟩
  obtain ⟨hempty, henc, hdec, -⟩ := ticks_keep (P := Pipelined.Quiet) (fun _ => tick_quiet) k hreset
  exact ⟨hempty, henc, hdec⟩

/-- Settles O2: the reset event leaves the registers as they are in the state after reset (R31, R180). -/
theorem resetEventClearsBothRegisters : Obligations.ResetEventClearsBothRegisters := by
  unfold Obligations.ResetEventClearsBothRegisters
  exact fun s rest hport => ⟨_, step_reset hport, resetStateHasNoResults⟩

/-! ### The idle step: O7 -/

/-- Settles O7: with nothing presented, and at an idle entry, a step changes no register (R189). -/
theorem idleStepKeepsRegisters : Obligations.IdleStepKeepsRegisters := by
  unfold Obligations.IdleStepKeepsRegisters
  exact ⟨fun _ => step_empty, fun _ _ => step_idle⟩

end Sys2Proof.Machine
